-- ==== Sys2Proof/Config.lean ====
section
/-! DEFINITION. What an implementation fixes and the spec leaves open: the register-index width, and how a
realization reports its progress. Each is an opaque constant: no proof can see its value. (The third, the raw-word
parser, stands in Decode.lean, after the types it speaks of.) -/

namespace Sys2Proof

/-- How many bits `REG_BITS` has above its least value 1 (R7, I5). Free value, safe (log 3). -/
opaque Config.extraRegBits : Nat

/-- `REG_BITS` (R7): open, at least 1. -/
def Config.regBits : Nat := Config.extraRegBits + 1

/-- `REG_COUNT = 2^REG_BITS` (R7): how many register indices the register ports can name. -/
def Config.regCount : Nat := 2 ^ Config.regBits

/-- Whether this realization shows the host `SEQ_IDX` while BUSY as the count of finished leading words (true) or
as 0 (false): R158 and I14 allow both. Free value, safe (log 8). -/
opaque Config.seqIdxShownWhileBusy : Bool

end Sys2Proof
end

