-- ==== Sys2Proof/Word.lean ====
section
/-! DEFINITION. The named widths of rule R7 and the value types that stand on the word decoder's input ports:
words, immediates, register indices, the closed enumerations of the opcode, operand and condition codes, and the
parsed-field record in its two forms (bit-vector ports and enumerated fields). -/

namespace Sys2Proof

/-- `WORD_BITS` (R7): the width of one instruction word. -/
abbrev wordBits : Nat := 64

/-- `IMM_BITS` (R7): the width of each immediate. -/
abbrev immBits : Nat := 16

/-- `CODE_CAPACITY` (R7): how many words of an image a decode consumes at most. -/
abbrev codeCapacity : Nat := 65536

/-- One raw instruction word (R59). -/
abbrev Word := BitVec wordBits

/-- A 16-bit immediate or offset, carried as it stands (R17, R18). -/
abbrev Imm := BitVec immBits

/-- A register index `u(REG_BITS)` (R16): "opaque small non-negative index", compared and copied, never computed
with. Its width is open (R7), so the type's width is the opaque `REG_BITS`. DESIGN CHOICE, safe (log 3). -/
abbrev Register := BitVec Config.regBits

/-- `OperandTag` (R64): the six addressing-mode classes shared by source 0 and destination 0. -/
inductive OperandTag where
  | reg
  | imm16
  | absStack
  | advSp
  | relStack
  | codePage
deriving DecidableEq, Repr, Inhabited

/-- The 8-valued condition code (R65), named by its number. -/
inductive CondCode where
  | c0
  | c1
  | c2
  | c3
  | c4
  | c5
  | c6
  | c7
deriving DecidableEq, Repr, Inhabited

/-- `OpcodeTag` (R63): the 24 tags the opcode map names, in the order of their codes. -/
inductive OpcodeTag where
  | nop
  | add
  | sub
  | mul
  | div
  | xor
  | and
  | or
  | shl
  | shr
  | rol
  | ror
  | jump
  | context
  | ptrAdd
  | ptrSub
  | ptrPack
  | ptrShrink
  | nearCall
  | log
  | farCall
  | ret
  | uma
  | invalid
deriving DecidableEq, Repr, Inhabited

/-- The parsed-field record of R62 without its opcode tag, the tags and the condition typed as closed
enumerations, as R62 asks. -/
structure Fields where
  src0Tag  : OperandTag
  dst0Tag  : OperandTag
  imm0     : Imm
  imm1     : Imm
  rSrc0    : Register
  rSrc1    : Register
  rDst0    : Register
  rDst1    : Register
  cond     : CondCode
  swap     : Bool
  setFlags : Bool
deriving DecidableEq, Repr, Inhabited

/-- The parsed-field record of R62 on bit-vector ports (the realization R73 speaks of): what the parser hands to
the decoder, the unused codes included. DESIGN CHOICE, safe (log 4). -/
structure Ports where
  opc      : BitVec 5
  src0Tag  : BitVec 3
  dst0Tag  : BitVec 3
  imm0     : Imm
  imm1     : Imm
  rSrc0    : Register
  rSrc1    : Register
  rDst0    : Register
  rDst1    : Register
  cond     : BitVec 3
  swap     : Bool
  setFlags : Bool
deriving DecidableEq, Repr, Inhabited

/-- The all-zero record that R61 gives for the all-zero word. -/
def Ports.zero : Ports :=
  { opc := 0, src0Tag := 0, dst0Tag := 0, imm0 := 0, imm1 := 0, rSrc0 := 0, rSrc1 := 0, rDst0 := 0, rDst1 := 0,
    cond := 0, swap := false, setFlags := false }

end Sys2Proof
end

