-- ==== Sys2Proof/Syntax.lean ====
section
/-! DEFINITION. The instructions: one constructor per row of spec/opcode_table.json. A decoded word's constructor
carries its whole parsed-field record, the fields its family ignores included, so that no bit of an encoding is
dropped before its meaning is given. DESIGN CHOICE, safe (log 20). -/

namespace Sys2Proof

/-- One constructor per row of the opcode table (R63, R71). The last two have no encoding: the sequencer
synthesizes them (R145). -/
inductive Instr where
  | nop (f : Fields)          -- R121
  | add (f : Fields)          -- R101
  | sub (f : Fields)          -- R102
  | mul (f : Fields)          -- R103
  | div (f : Fields)          -- R104
  | xor (f : Fields)          -- R105
  | and (f : Fields)          -- R106
  | or (f : Fields)           -- R107
  | shl (f : Fields)          -- R108
  | shr (f : Fields)          -- R109
  | rol (f : Fields)          -- R110
  | ror (f : Fields)          -- R111
  | jump (f : Fields)         -- R116
  | context (f : Fields)      -- R127
  | ptrAdd (f : Fields)       -- R128
  | ptrSub (f : Fields)       -- R129
  | ptrPack (f : Fields)      -- R130
  | ptrShrink (f : Fields)    -- R131
  | nearCall (f : Fields)     -- R132
  | log (f : Fields)          -- R133
  | farCall (f : Fields)      -- R134
  | ret (f : Fields)          -- R135
  | uma (f : Fields)          -- R136
  | invalid (f : Fields)      -- R137
  | jumpToBeginning           -- R146
  | endExecution              -- R147
deriving DecidableEq, Repr

/-- The opcode tag and fields of an instruction that a word encodes; none for the two sentinels (R71). -/
def Instr.parts : Instr → Option (OpcodeTag × Fields)
  | .nop f => some (.nop, f)
  | .add f => some (.add, f)
  | .sub f => some (.sub, f)
  | .mul f => some (.mul, f)
  | .div f => some (.div, f)
  | .xor f => some (.xor, f)
  | .and f => some (.and, f)
  | .or f => some (.or, f)
  | .shl f => some (.shl, f)
  | .shr f => some (.shr, f)
  | .rol f => some (.rol, f)
  | .ror f => some (.ror, f)
  | .jump f => some (.jump, f)
  | .context f => some (.context, f)
  | .ptrAdd f => some (.ptrAdd, f)
  | .ptrSub f => some (.ptrSub, f)
  | .ptrPack f => some (.ptrPack, f)
  | .ptrShrink f => some (.ptrShrink, f)
  | .nearCall f => some (.nearCall, f)
  | .log f => some (.log, f)
  | .farCall f => some (.farCall, f)
  | .ret f => some (.ret, f)
  | .uma f => some (.uma, f)
  | .invalid f => some (.invalid, f)
  | .jumpToBeginning => none
  | .endExecution => none

end Sys2Proof
end

