-- ==== Sys2Proof/WellFormed.lean ====
section
/-! DEFINITION. When an instruction is well formed as the content of a word: a word can encode it. Every field of
its record is typed so that only values its port can carry exist (R62, R7), so no field needs a check of its own. -/

namespace Sys2Proof

/-- A word can encode the instruction: it has an opcode tag and a record of fields. The two sentinels have neither;
only the sequencer makes them (R71, R145 to R147). -/
def Instr.WellFormed (i : Instr) : Prop := i.parts.isSome = true

end Sys2Proof
end

