-- ==== Sys2Proof/Decode.lean ====
section
/-! DEFINITION. Decoding: the codes of R63 to R65, the decoder from bit-vector ports to instructions (total,
refusing the unused codes of R73 by name), the encoder back, and the raw-word parser parameter of R61, over
its opaque constant. -/

namespace Sys2Proof

/-- The operand tag with this code (R64); codes 6 and 7 are unused. -/
def OperandTag.ofCode (c : BitVec 3) : Option OperandTag :=
  match c.toNat with
  | 0 => some .reg
  | 1 => some .imm16
  | 2 => some .absStack
  | 3 => some .advSp
  | 4 => some .relStack
  | 5 => some .codePage
  | _ => none

/-- The code of an operand tag (R64). -/
def OperandTag.code : OperandTag → BitVec 3
  | .reg => 0
  | .imm16 => 1
  | .absStack => 2
  | .advSp => 3
  | .relStack => 4
  | .codePage => 5

/-- The condition code on a 3-bit port (R65): every one of the 8 values is a code; the last arm is 7. -/
def CondCode.ofCode (c : BitVec 3) : CondCode :=
  match c.toNat with
  | 0 => .c0
  | 1 => .c1
  | 2 => .c2
  | 3 => .c3
  | 4 => .c4
  | 5 => .c5
  | 6 => .c6
  | _ => .c7

/-- The number of a condition code (R65). -/
def CondCode.code : CondCode → BitVec 3
  | .c0 => 0
  | .c1 => 1
  | .c2 => 2
  | .c3 => 3
  | .c4 => 4
  | .c5 => 5
  | .c6 => 6
  | .c7 => 7

/-- The opcode tag with this code (R63); codes 24 to 31 are unused. -/
def OpcodeTag.ofCode (c : BitVec 5) : Option OpcodeTag :=
  match c.toNat with
  | 0 => some .nop
  | 1 => some .add
  | 2 => some .sub
  | 3 => some .mul
  | 4 => some .div
  | 5 => some .xor
  | 6 => some .and
  | 7 => some .or
  | 8 => some .shl
  | 9 => some .shr
  | 10 => some .rol
  | 11 => some .ror
  | 12 => some .jump
  | 13 => some .context
  | 14 => some .ptrAdd
  | 15 => some .ptrSub
  | 16 => some .ptrPack
  | 17 => some .ptrShrink
  | 18 => some .nearCall
  | 19 => some .log
  | 20 => some .farCall
  | 21 => some .ret
  | 22 => some .uma
  | 23 => some .invalid
  | _ => none

/-- The code of an opcode tag (R63). -/
def OpcodeTag.code : OpcodeTag → BitVec 5
  | .nop => 0
  | .add => 1
  | .sub => 2
  | .mul => 3
  | .div => 4
  | .xor => 5
  | .and => 6
  | .or => 7
  | .shl => 8
  | .shr => 9
  | .rol => 10
  | .ror => 11
  | .jump => 12
  | .context => 13
  | .ptrAdd => 14
  | .ptrSub => 15
  | .ptrPack => 16
  | .ptrShrink => 17
  | .nearCall => 18
  | .log => 19
  | .farCall => 20
  | .ret => 21
  | .uma => 22
  | .invalid => 23

/-- The instruction that an opcode tag and a field record name (R71). -/
def Instr.ofTag : OpcodeTag → Fields → Instr
  | .nop, f => .nop f
  | .add, f => .add f
  | .sub, f => .sub f
  | .mul, f => .mul f
  | .div, f => .div f
  | .xor, f => .xor f
  | .and, f => .and f
  | .or, f => .or f
  | .shl, f => .shl f
  | .shr, f => .shr f
  | .rol, f => .rol f
  | .ror, f => .ror f
  | .jump, f => .jump f
  | .context, f => .context f
  | .ptrAdd, f => .ptrAdd f
  | .ptrSub, f => .ptrSub f
  | .ptrPack, f => .ptrPack f
  | .ptrShrink, f => .ptrShrink f
  | .nearCall, f => .nearCall f
  | .log, f => .log f
  | .farCall, f => .farCall f
  | .ret, f => .ret f
  | .uma, f => .uma f
  | .invalid, f => .invalid f

/-- Why the decoder refuses a record on bit-vector ports (R73). A conforming parser never produces one. -/
inductive DecodeReject where
  /-- `dst0_tag` is 6 or 7. -/
  | unusedDestinationTag (code : BitVec 3)
  /-- `src0_tag` is 6 or 7. -/
  | unusedSourceTag (code : BitVec 3)
  /-- `opc` is 24 to 31; the destination tag is kept, since it may fault first (R138, R165, U17). -/
  | unusedOpcode (code : BitVec 5) (dst0Tag : OperandTag)
deriving DecidableEq, Repr

/-- What the decoder reads from a record: an instruction, or a refusal by name. -/
inductive DecodeResult where
  | ok (i : Instr)
  | error (r : DecodeReject)
deriving DecidableEq, Repr

/-- What the ports name (R62): an opcode tag with its fields, or a refusal by name. -/
inductive PartsResult where
  | ok (t : OpcodeTag) (f : Fields)
  | error (r : DecodeReject)
deriving DecidableEq, Repr

/-- The fields of a record whose two operand tags are already read: immediates, registers and flag bits are copied
(R66, R67, R69, R86), the condition code is named (R65). -/
def Ports.fieldsWith (p : Ports) (src dst : OperandTag) : Fields :=
  { src0Tag := src, dst0Tag := dst, imm0 := p.imm0, imm1 := p.imm1, rSrc0 := p.rSrc0, rSrc1 := p.rSrc1,
    rDst0 := p.rDst0, rDst1 := p.rDst1, cond := CondCode.ofCode p.cond, swap := p.swap, setFlags := p.setFlags }

/-- Reading bit-vector ports (R62 to R65, R73): total, in the resolving order of R76 (destination, source,
opcode). -/
def decodeParts (p : Ports) : PartsResult :=
  match OperandTag.ofCode p.dst0Tag with
  | none => .error (.unusedDestinationTag p.dst0Tag)
  | some dst =>
    match OperandTag.ofCode p.src0Tag with
    | none => .error (.unusedSourceTag p.src0Tag)
    | some src =>
      match OpcodeTag.ofCode p.opc with
      | none => .error (.unusedOpcode p.opc dst)
      | some t => .ok t (p.fieldsWith src dst)

/-- The decoder: the instruction the ports hold, or a refusal by name. -/
def decodePorts (p : Ports) : DecodeResult :=
  match decodeParts p with
  | .ok t f => .ok (Instr.ofTag t f)
  | .error r => .error r

/-- The record an opcode tag and fields stand for, by the codes of R63 to R65. -/
def encodeParts (t : OpcodeTag) (f : Fields) : Ports :=
  { opc := t.code, src0Tag := f.src0Tag.code, dst0Tag := f.dst0Tag.code, imm0 := f.imm0, imm1 := f.imm1,
    rSrc0 := f.rSrc0, rSrc1 := f.rSrc1, rDst0 := f.rDst0, rDst1 := f.rDst1, cond := f.cond.code, swap := f.swap,
    setFlags := f.setFlags }

/-- The encoder: the record of an instruction a word can encode; a sentinel has no encoding (R71, R145). -/
def encode (i : Instr) : Option Ports :=
  match i.parts with
  | some (t, f) => some (encodeParts t f)
  | none => none

/-- The part of the open parameter `ParseWord` that the host has fixed (R183), as plain data: which record a word
parses to. DESIGN CHOICE, safe (log 1). -/
abbrev ParserTable := List (Word × Ports)

/-- The first record the table gives for a word. -/
def ParserTable.find : ParserTable → Word → Option Ports
  | [], _ => none
  | (k, p) :: rest, w => if k = w then some p else ParserTable.find rest w

/-- What the external parser makes of a word about which neither R61 nor the installed parser table says anything
(R60, R61, I4). Free value, safe (log 1). -/
opaque Config.parseWord : Word → Ports

/-- `ParseWord` (R61): total; fixed at the all-zero word; else what the table says; else the opaque parser. -/
def parseWord (t : ParserTable) (w : Word) : Ports :=
  if w = 0 then Ports.zero
  else
    match ParserTable.find t w with
    | some p => p
    | none => Config.parseWord w

/-- The record whose `opc` port holds the table's bits [4:0] and whose other ports are 0 (R63: an instruction is
selected when `opc & 0x1F = match`). DESIGN CHOICE, safe (log 13). -/
def portsOfTableBits (nbits w : Nat) : Ports :=
  { Ports.zero with opc := BitVec.ofNat 5 (w % 2 ^ nbits) }

/-- The instruction the decoder reads from a record whose bits, as spec/opcode_table.json numbers them (the 5-bit
`opc` port, "opc & mask = match"), are `w`; every other port is 0. -/
def decodeTableWord (nbits w : Nat) : Option Instr :=
  match decodePorts (portsOfTableBits nbits w) with
  | .ok i => some i
  | .error _ => none

end Sys2Proof
end

