-- ==== Sys2Proof/Machine/Record.lean ====
section
/-! DEFINITION. The value types the CORE produces (10_state.md section 1): resolved operands, the decoded
instruction record, and the results of decoding a word and a program. -/

namespace Sys2Proof.Machine

/-- `StackLikeParameters` (R17), written `SLP(offset, reg)` in the spec. -/
structure StackLikeParameters where
  offset : Imm
  reg    : Register
deriving DecidableEq, Repr

/-- `AnySource` (R19): the closed sum of resolved source operands. -/
inductive AnySource where
  | register1 (r : Register)
  | immediate1 (v : Imm)
  | absoluteStack (p : StackLikeParameters)
  | advanceStackPointer (p : StackLikeParameters)   -- implies pop
  | relativeStack (p : StackLikeParameters)
  | codePage (p : StackLikeParameters)              -- read-only constant-page access
deriving DecidableEq, Repr

/-- `AnyDestination` (R20): no immediate and no code-page destination exists (R21). -/
inductive AnyDestination where
  | register1 (r : Register)
  | absoluteStack (p : StackLikeParameters)
  | advanceStackPointer (p : StackLikeParameters)   -- implies push
  | relativeStack (p : StackLikeParameters)
deriving DecidableEq, Repr

/-- `BinOp` (R22): the eleven operations of the binary family. -/
inductive BinOp where
  | add
  | sub
  | mul
  | div
  | xor
  | and
  | or
  | shl
  | shr
  | rol
  | ror
deriving DecidableEq, Repr

/-- `Predicate` (R23): the eight execution conditions. -/
inductive Predicate where
  | always
  | ifGT
  | ifLT
  | ifEQ
  | ifGE
  | ifLE
  | ifNotEQ
  | ifGtOrLT
deriving DecidableEq, Repr

/-- `Instruction` (R24): the immutable record the CORE outputs (R25). -/
inductive Instruction where
  | binary (op : BinOp) (src : AnySource) (src2 : Register) (dst : AnyDestination) (dst2 : Option Register)
      (pred : Predicate) (swap : Bool) (setFlags : Bool)
  | jump (target : AnySource) (pred : Predicate)
  | nop (pop : StackLikeParameters) (push : StackLikeParameters) (pred : Predicate)
  | jumpToBeginning
  | endExecution
deriving DecidableEq, Repr

/-- `FaultCause` (R27, R163): the two fatal decode conditions. -/
inductive FaultCause where
  | encodingViolation
  | unsupportedOpcode
deriving DecidableEq, Repr

/-- The result of resolving a destination (R87). -/
inductive DestResult where
  | ok (d : AnyDestination)
  | error (c : FaultCause)
deriving DecidableEq, Repr

/-- `WordResult` (R27). -/
inductive WordResult where
  | ok (ins : Instruction)
  | error (c : FaultCause)
deriving DecidableEq, Repr

/-- `ProgramResult` (R27): a decoded program, or a cause and the image index of the word that faulted. -/
inductive ProgramResult where
  | ok (program : List Instruction)
  | error (c : FaultCause) (index : Nat)
deriving DecidableEq, Repr

end Sys2Proof.Machine
end

