-- ==== Sys2Proof/Machine/State.lean ====
section
/-! DEFINITION. The block's state as plain data (10_state.md sections 3 to 6), the host's inputs, the reasons a
step can stop, and the state after reset (R42). -/

namespace Sys2Proof.Machine

/-- `STATUS` (R30): the sequencer's phase. -/
inductive Status where
  | idle
  | busy
  | done
  | fault
deriving DecidableEq, Repr

/-- The decoded-program store `PROG` (R38): the slots that hold a record, in rising order; every slot not listed
holds `None`. DESIGN CHOICE, safe (log 9). -/
abbrev Memory := List (Nat × Instruction)

/-- A transaction the host sends (R78, R79): a command, or a read on a result port. -/
inductive Command where
  /-- `START(n, img)` (R148), where `n` is the length of `img`. -/
  | start (img : List Word)
  /-- `RESET` (R181). -/
  | reset
  /-- `CSR_READ(k)` (R79). -/
  | csrRead (k : Nat)
  /-- `PROG_READ(j)` (R79, R47). -/
  | progRead (j : Nat)
deriving DecidableEq, Repr

/-- What a read on a result port returns (R79): a register zero-extended to 32 bits, or a typed record (R80). -/
inductive PortValue where
  | csr (v : BitVec 32)
  | prog (ins : Instruction)
deriving DecidableEq, Repr

/-- The whole machine. The first nine fields are the spec's (R29 to R38); the last three are the model's own. -/
structure State where
  /-- `STATUS` (R30). -/
  status     : Status
  /-- `SEQ_IDX` (R31): the block's program counter. -/
  seqIdx     : Fin (codeCapacity + 1)
  /-- `N_EFF` (R32). -/
  nEff       : Fin (codeCapacity + 1)
  /-- `WRAP` (R33). -/
  wrap       : Bool
  /-- `OUT_LEN` (R34). -/
  outLen     : Fin (codeCapacity + 2)
  /-- `FAULT_CAUSE` (R35): none is code 0, NONE. -/
  faultCause : Option FaultCause
  /-- `FAULT_INDEX` (R36). -/
  faultIndex : Fin codeCapacity
  /-- `PROG` (R38). -/
  prog       : Memory
  /-- `IMG` (R37): the snapshot taken at START; none where no image is held. -/
  img        : Option (List Word)
  /-- The open parameter `ParseWord` as far as the host fixed it (R61, R183). The model's own (log 1). -/
  parser     : ParserTable
  /-- The host's coming inputs, one entry a step; `none` is a step with no input. The model's own (log 5). -/
  host       : List (Option Command)
  /-- The value the last accepted read returned (R79). The model's own (log 6). -/
  result     : Option PortValue
deriving DecidableEq, Repr

/-- Why the model stops with no step. Each is safe: no run from reset reaches one (log 11, log 12). -/
inductive Fault where
  /-- Raised by a decoded word's meaning where no word step is enabled (R149, R150): STATUS is not BUSY, or
  SEQ_IDX is not below N_EFF. Safe. -/
  | wordStepNotEnabled
  /-- Raised by a sentinel's meaning where its sentinel step is not enabled (R149, R151): STATUS is not BUSY,
  SEQ_IDX is not N_EFF, or WRAP selects the other sentinel. Safe. -/
  | sentinelStepNotEnabled
  /-- Raised by the fetch where SEQ_IDX is below N_EFF and the snapshot has no such word (R37, R45). Safe. -/
  | imageWordAbsent
  /-- Raised by the fetch where STATUS is BUSY and SEQ_IDX is above N_EFF, which R31 excludes. Safe. -/
  | sequencerPastEnd
deriving DecidableEq, Repr

/-- Actions the model gives no meaning. -/
inductive Refusal where
  /-- An instruction with no meaning yet, by its mnemonic: raised by no arm of this model. Safe. -/
  | notModelled (mnemonic : String)
  /-- `START` while BUSY (R148, R190, D16). Safe. -/
  | startWhileBusy
  /-- `CSR_READ(k)` with no register number `k` (R79, I11). Safe. -/
  | csrReadNoRegister
  /-- `PROG_READ(j)` where slot `j` is not readable (R47, R189, D21). Safe. -/
  | progReadNotReadable
deriving DecidableEq, Repr

/-- The machine right after reset (R42): every register at its reset value, every slot `None`, no image held. The
model's own three fields are empty (log 15). -/
def State.reset : State :=
  { status := .idle, seqIdx := 0, nEff := 0, wrap := false, outLen := 0, faultCause := none, faultIndex := 0,
    prog := [], img := none, parser := [], host := [], result := none }

end Sys2Proof.Machine
end

