-- ==== Sys2Proof/Machine/Flags.lean ====
section
/-! DEFINITION. The predicate mapper (R81) and the two flag bits the CORE carries (R69, R112, R113). The CORE has
no flags of its own and writes none (R39). -/

namespace Sys2Proof.Machine

/-- `MapPredicate` (R81): a total 1:1 renaming of the condition code. -/
def mapPredicate : CondCode → Predicate
  | .c0 => .always
  | .c1 => .ifGT
  | .c2 => .ifLT
  | .c3 => .ifEQ
  | .c4 => .ifGE
  | .c5 => .ifLE
  | .c6 => .ifNotEQ
  | .c7 => .ifGtOrLT

/-- The `swap` bit a binary record carries (R112): the word's bit, unchanged. -/
def swapBit (f : Fields) : Bool := f.swap

/-- The `set_flags` bit a binary record carries (R113): the word's bit, unchanged. -/
def setFlagsBit (f : Fields) : Bool := f.setFlags

end Sys2Proof.Machine
end

