-- ==== Sys2Proof/Machine/Operands.lean ====
section
/-! DEFINITION. The source and destination operand resolvers (40_operands.md), the second destination of the
binary family (R100), and the no-op's stack-pointer placeholder (R120). -/

namespace Sys2Proof.Machine

/-- `ResolveSource` (R84): total; copies the immediate and the register bit for bit (R86). -/
def resolveSource (tag : OperandTag) (imm : Imm) (r : Register) : AnySource :=
  match tag with
  | .reg => .register1 r
  | .imm16 => .immediate1 imm
  | .absStack => .absoluteStack ⟨imm, r⟩
  | .advSp => .advanceStackPointer ⟨imm, r⟩
  | .relStack => .relativeStack ⟨imm, r⟩
  | .codePage => .codePage ⟨imm, r⟩

/-- `ResolveDestination` (R87): an immediate or code-page destination raises EncodingViolation (R88). -/
def resolveDestination (tag : OperandTag) (imm : Imm) (r : Register) : DestResult :=
  match tag with
  | .reg => .ok (.register1 r)
  | .imm16 => .error .encodingViolation
  | .absStack => .ok (.absoluteStack ⟨imm, r⟩)
  | .advSp => .ok (.advanceStackPointer ⟨imm, r⟩)
  | .relStack => .ok (.relativeStack ⟨imm, r⟩)
  | .codePage => .error .encodingViolation

/-- The word's source operand: `src0_tag`, `imm0` and `r_src0` (R66, R67, R90). -/
def sourceOf (f : Fields) : AnySource := resolveSource f.src0Tag f.imm0 f.rSrc0

/-- The word's destination operand: `dst0_tag`, `imm1` and `r_dst0` (R66, R67, R90). -/
def destinationOf (f : Fields) : DestResult := resolveDestination f.dst0Tag f.imm1 f.rDst0

/-- `Dst2` (R100): multiply and divide bind a second destination register, the other operations none. -/
def secondDestination (op : BinOp) (r : Register) : Option Register :=
  match op with
  | .mul => some r
  | .div => some r
  | .add => none
  | .sub => none
  | .xor => none
  | .and => none
  | .or => none
  | .shl => none
  | .shr => none
  | .rol => none
  | .ror => none

/-- `NO_SP_MOVEMENT = SLP(0, 0)` (R120). -/
def noSpMovement : StackLikeParameters := ⟨0, 0⟩

/-- The pop side of a no-op (R121): an `AdvanceStackPointer` source's parameters, else the placeholder. -/
def popOf : AnySource → StackLikeParameters
  | .advanceStackPointer p => p
  | .register1 _ => noSpMovement
  | .immediate1 _ => noSpMovement
  | .absoluteStack _ => noSpMovement
  | .relativeStack _ => noSpMovement
  | .codePage _ => noSpMovement

/-- The push side of a no-op (R121): an `AdvanceStackPointer` destination's parameters, else the placeholder. -/
def pushOf : AnyDestination → StackLikeParameters
  | .advanceStackPointer p => p
  | .register1 _ => noSpMovement
  | .absoluteStack _ => noSpMovement
  | .relativeStack _ => noSpMovement

end Sys2Proof.Machine
end

