-- ==== Sys2Proof/Machine/Ops.lean ====
section
/-! DEFINITION. The named operations: reads and writes of the two spaces (20_memory.md), the word step, the fault
step (taking a decode fault) and the sentinel step of the sequencer (45_sequencer.md section 2). -/

namespace Sys2Proof.Machine

/-- Slot `j` of the store: the record it holds, or `None` (R38). -/
def Memory.read : Memory → Nat → Option Instruction
  | [], _ => none
  | (k, ins) :: rest, j => if k = j then some ins else Memory.read rest j

/-- `MemWrite(PROG, j, 1, ins)` (R48): slot `j` holds `ins`, every other slot is as before; the list stays in
rising order. -/
def Memory.write : Memory → Nat → Instruction → Memory
  | [], j, ins => [(j, ins)]
  | (k, old) :: rest, j, ins =>
    if j < k then (j, ins) :: (k, old) :: rest
    else if j = k then (j, ins) :: rest
    else (k, old) :: Memory.write rest j ins

/-- Every slot set to `None` (R38, R148, R152, R181). -/
def Memory.cleared : Memory := []

/-- The canonical form: slots strictly rising and inside `0 .. CODE_CAPACITY` (R43). A slot that reads as `None`
has no entry, since an entry holds a record. -/
abbrev Memory.wf (m : Memory) : Prop :=
  m.Pairwise (fun a b => a.1 < b.1) ∧ ∀ c ∈ m, c.1 ≤ codeCapacity

/-- `MemRead(IMG, i, 8)` (R45): the word at index `i` of the snapshot, if it has one. -/
def imageRead (s : State) (i : Nat) : Option Word :=
  match s.img with
  | none => none
  | some ws => ws[i]?

/-- Whether the store read `PROG_READ(j)` has a value (R47): `STATUS` is DONE and `j < OUT_LEN`. -/
def progRead (s : State) (j : Nat) : Option Instruction :=
  if s.status = .done ∧ j < s.outLen.val then Memory.read s.prog j else none

/-- The word step's condition (R149, R150), apart from the word's own decode. -/
abbrev WordStepEnabled (s : State) : Prop := s.status = .busy ∧ s.seqIdx.val < s.nEff.val

/-- The sentinel step's condition (R149, R151), with the sentinel that `WRAP` selects (R33, R143). -/
abbrev SentinelStepEnabled (wrap : Bool) (s : State) : Prop :=
  s.status = .busy ∧ s.seqIdx.val = s.nEff.val ∧ s.wrap = wrap

/-- The next word index (R31): one more, and never past CODE_CAPACITY: it does not wrap. -/
def nextIndex (i : Fin (codeCapacity + 1)) : Fin (codeCapacity + 1) :=
  if h : i.val < codeCapacity then ⟨i.val + 1, by omega⟩ else i

/-- A word index as `FAULT_INDEX` holds it (R36): the same number; at CODE_CAPACITY no word stands, and the fault
step is never enabled there. -/
def wordIndex (i : Fin (codeCapacity + 1)) : Fin codeCapacity :=
  if h : i.val < codeCapacity then ⟨i.val, h⟩ else 0

/-- The state after a word step (R150): the record in slot `SEQ_IDX`, `SEQ_IDX` at the next word. -/
def recorded (ins : Instruction) (s : State) : State :=
  { s with prog := Memory.write s.prog s.seqIdx.val ins, seqIdx := nextIndex s.seqIdx }

/-- The state after a fault step (R152, R166, R167): cause and index saved, the whole program discarded, `OUT_LEN`
0, `STATUS` FAULT; `SEQ_IDX` stays and no control is transferred. -/
def faulted (c : FaultCause) (s : State) : State :=
  { s with
    prog := Memory.cleared, faultCause := some c, faultIndex := wordIndex s.seqIdx, outLen := 0, status := .fault }

/-- The state after a sentinel step (R151): the sentinel in slot `N_EFF`, `OUT_LEN` counting it, `STATUS` DONE. -/
def finished (ins : Instruction) (s : State) : State :=
  { s with
    prog := Memory.write s.prog s.nEff.val ins, outLen := ⟨s.nEff.val + 1, by omega⟩, status := .done }

/-- Word step (R150), where it is enabled. -/
def storeRecord (ins : Instruction) (s : State) : Host.Outcome State Fault Refusal :=
  if WordStepEnabled s then .next (recorded ins s) else .fault .wordStepNotEnabled

/-- Fault step (R152): TAKING A DECODE FAULT, where a word step is enabled. -/
def takeFault (c : FaultCause) (s : State) : Host.Outcome State Fault Refusal :=
  if WordStepEnabled s then .next (faulted c s) else .fault .wordStepNotEnabled

/-- What the sequencer does with a word's result: the word step for a record (R150), the fault step for a fault
(R152). -/
def commit (r : WordResult) (s : State) : Host.Outcome State Fault Refusal :=
  match r with
  | .ok ins => storeRecord ins s
  | .error c => takeFault c s

/-- Sentinel step (R151), where it is enabled for this sentinel. -/
def storeSentinel (wrap : Bool) (ins : Instruction) (s : State) : Host.Outcome State Fault Refusal :=
  if SentinelStepEnabled wrap s then .next (finished ins s) else .fault .sentinelStepNotEnabled

/-- A family's construction with the operands resolved in the order of R76: the destination first, and always
(R89), so that its fault comes before any other (R165); then the source and the predicate, which are total. -/
def withOperands (f : Fields) (build : AnySource → AnyDestination → Predicate → WordResult) : WordResult :=
  match destinationOf f with
  | .error c => .error c
  | .ok dst => build (sourceOf f) dst (mapPredicate f.cond)

end Sys2Proof.Machine
end

