-- ==== Sys2Proof/Machine/Binary.lean ====
section
/-! DEFINITION. The binary arithmetic, logic and shift family (41_binary.md): one generic constructor (R99) and
one meaning per operation (R101 to R111). -/

namespace Sys2Proof.Machine

/-- The generic binary constructor (R99): every input is bound into the record unchanged. -/
def binaryRecord (op : BinOp) (f : Fields) : WordResult :=
  withOperands f fun src dst pred =>
    .ok (.binary op src f.rSrc1 dst (secondDestination op f.rDst1) pred (swapBit f) (setFlagsBit f))

/-- ADD (R101). -/
def execAdd (f : Fields) (s : State) : Host.Outcome State Fault Refusal := commit (binaryRecord .add f) s

/-- SUB (R102). -/
def execSub (f : Fields) (s : State) : Host.Outcome State Fault Refusal := commit (binaryRecord .sub f) s

/-- MUL (R103). -/
def execMul (f : Fields) (s : State) : Host.Outcome State Fault Refusal := commit (binaryRecord .mul f) s

/-- DIV (R104). -/
def execDiv (f : Fields) (s : State) : Host.Outcome State Fault Refusal := commit (binaryRecord .div f) s

/-- XOR (R105). -/
def execXor (f : Fields) (s : State) : Host.Outcome State Fault Refusal := commit (binaryRecord .xor f) s

/-- AND (R106). -/
def execAnd (f : Fields) (s : State) : Host.Outcome State Fault Refusal := commit (binaryRecord .and f) s

/-- OR (R107). -/
def execOr (f : Fields) (s : State) : Host.Outcome State Fault Refusal := commit (binaryRecord .or f) s

/-- SHL (R108). -/
def execShl (f : Fields) (s : State) : Host.Outcome State Fault Refusal := commit (binaryRecord .shl f) s

/-- SHR (R109). -/
def execShr (f : Fields) (s : State) : Host.Outcome State Fault Refusal := commit (binaryRecord .shr f) s

/-- ROL (R110). -/
def execRol (f : Fields) (s : State) : Host.Outcome State Fault Refusal := commit (binaryRecord .rol f) s

/-- ROR (R111). -/
def execRor (f : Fields) (s : State) : Host.Outcome State Fault Refusal := commit (binaryRecord .ror f) s

end Sys2Proof.Machine
end

