-- ==== Sys2Proof/Machine/Jump.lean ====
section
/-! DEFINITION. The decoded jump (42_jump.md). -/

namespace Sys2Proof.Machine

/-- The jump's record (R116): the target and the predicate; the destination is resolved, then dropped (R117); the
target is not checked (R119). -/
def jumpRecord (f : Fields) : WordResult :=
  withOperands f fun src _ pred => .ok (.jump src pred)

/-- JUMP (R116). -/
def execJump (f : Fields) (s : State) : Host.Outcome State Fault Refusal := commit (jumpRecord f) s

end Sys2Proof.Machine
end

