-- ==== Sys2Proof/Machine/Nop.lean ====
section
/-! DEFINITION. The no-operation (43_nop.md). -/

namespace Sys2Proof.Machine

/-- The no-op's record (R121): both stack-pointer adjustments and the predicate (R122). -/
def nopRecord (f : Fields) : WordResult :=
  withOperands f fun src dst pred => .ok (.nop (popOf src) (pushOf dst) pred)

/-- NOP (R121). -/
def execNop (f : Fields) (s : State) : Host.Outcome State Fault Refusal := commit (nopRecord f) s

end Sys2Proof.Machine
end

