-- ==== Sys2Proof/Machine/Sentinel.lean ====
section
/-! DEFINITION. The two sentinels (45_sequencer.md R146, R147): synthesized by the sequencer after the last decoded
word, with no operands and no predicate. What either does in the execution engine is outside the CORE (R4). -/

namespace Sys2Proof.Machine

/-- JumpToBeginning (R146, R151): the sentinel of an image of CODE_CAPACITY words or more (`WRAP` = 1). -/
def execJumpToBeginning (s : State) : Host.Outcome State Fault Refusal := storeSentinel true .jumpToBeginning s

/-- EndExecution (R147, R151): the sentinel of an image of fewer than CODE_CAPACITY words (`WRAP` = 0). -/
def execEndExecution (s : State) : Host.Outcome State Fault Refusal := storeSentinel false .endExecution s

end Sys2Proof.Machine
end

