-- ==== Sys2Proof/Machine/Unimplemented.lean ====
section
/-! DEFINITION. The unimplemented opcode families (44_unimplemented.md): each decodes to a fault, and the fault step
is its effect (R126, R152). No construction is guessed for any of them (R139). -/

namespace Sys2Proof.Machine

/-- The unimplemented family rule (R126): UnsupportedOpcode, unless resolving the destination faults first
(R165). -/
def unsupportedRecord (f : Fields) : WordResult :=
  withOperands f fun _ _ _ => .error .unsupportedOpcode

/-- CONTEXT (R127). -/
def execContext (f : Fields) (s : State) : Host.Outcome State Fault Refusal := commit (unsupportedRecord f) s

/-- PTR_ADD (R128). -/
def execPtrAdd (f : Fields) (s : State) : Host.Outcome State Fault Refusal := commit (unsupportedRecord f) s

/-- PTR_SUB (R129). -/
def execPtrSub (f : Fields) (s : State) : Host.Outcome State Fault Refusal := commit (unsupportedRecord f) s

/-- PTR_PACK (R130). -/
def execPtrPack (f : Fields) (s : State) : Host.Outcome State Fault Refusal := commit (unsupportedRecord f) s

/-- PTR_SHRINK (R131). -/
def execPtrShrink (f : Fields) (s : State) : Host.Outcome State Fault Refusal := commit (unsupportedRecord f) s

/-- NEAR_CALL (R132). -/
def execNearCall (f : Fields) (s : State) : Host.Outcome State Fault Refusal := commit (unsupportedRecord f) s

/-- LOG (R133). -/
def execLog (f : Fields) (s : State) : Host.Outcome State Fault Refusal := commit (unsupportedRecord f) s

/-- FAR_CALL (R134). -/
def execFarCall (f : Fields) (s : State) : Host.Outcome State Fault Refusal := commit (unsupportedRecord f) s

/-- RET (R135). -/
def execRet (f : Fields) (s : State) : Host.Outcome State Fault Refusal := commit (unsupportedRecord f) s

/-- UMA (R136). -/
def execUma (f : Fields) (s : State) : Host.Outcome State Fault Refusal := commit (unsupportedRecord f) s

/-- INVALID (R137). -/
def execInvalid (f : Fields) (s : State) : Host.Outcome State Fault Refusal := commit (unsupportedRecord f) s

end Sys2Proof.Machine
end

