-- ==== Sys2Proof/Machine/Dispatch.lean ====
section
/-! DEFINITION. One arm per instruction, each a direct call of its meaning. -/

namespace Sys2Proof.Machine

def exec (i : Instr) (s : State) : Host.Outcome State Fault Refusal :=
  match i with
  | .nop f => Sys2Proof.Machine.execNop f s
  | .add f => Sys2Proof.Machine.execAdd f s
  | .sub f => Sys2Proof.Machine.execSub f s
  | .mul f => Sys2Proof.Machine.execMul f s
  | .div f => Sys2Proof.Machine.execDiv f s
  | .xor f => Sys2Proof.Machine.execXor f s
  | .and f => Sys2Proof.Machine.execAnd f s
  | .or f => Sys2Proof.Machine.execOr f s
  | .shl f => Sys2Proof.Machine.execShl f s
  | .shr f => Sys2Proof.Machine.execShr f s
  | .rol f => Sys2Proof.Machine.execRol f s
  | .ror f => Sys2Proof.Machine.execRor f s
  | .jump f => Sys2Proof.Machine.execJump f s
  | .context f => Sys2Proof.Machine.execContext f s
  | .ptrAdd f => Sys2Proof.Machine.execPtrAdd f s
  | .ptrSub f => Sys2Proof.Machine.execPtrSub f s
  | .ptrPack f => Sys2Proof.Machine.execPtrPack f s
  | .ptrShrink f => Sys2Proof.Machine.execPtrShrink f s
  | .nearCall f => Sys2Proof.Machine.execNearCall f s
  | .log f => Sys2Proof.Machine.execLog f s
  | .farCall f => Sys2Proof.Machine.execFarCall f s
  | .ret f => Sys2Proof.Machine.execRet f s
  | .uma f => Sys2Proof.Machine.execUma f s
  | .invalid f => Sys2Proof.Machine.execInvalid f s
  | .jumpToBeginning => Sys2Proof.Machine.execJumpToBeginning s
  | .endExecution => Sys2Proof.Machine.execEndExecution s

end Sys2Proof.Machine
end

