-- ==== Sys2Proof/Machine/HostPorts.lean ====
section
/-! DEFINITION. The block's ports (30_encoding.md section 7): the START and RESET commands, the status-read and
result-read ports, and the refusals of 70_reset_and_hazards.md R186. -/

namespace Sys2Proof.Machine

/-- The code of `STATUS` (R29). -/
def statusCode : Status → Nat
  | .idle => 0
  | .busy => 1
  | .done => 2
  | .fault => 3

/-- The code of `FAULT_CAUSE` (R29, R163): 3 is never produced. -/
def faultCauseCode : Option FaultCause → Nat
  | none => 0
  | some .encodingViolation => 1
  | some .unsupportedOpcode => 2

/-- The `SEQ_IDX` a host reads (R31): the register itself, but while BUSY a realization may show 0 (R158, I14). -/
def shownSeqIdx (s : State) : Nat :=
  if s.status = .busy then
    if Config.seqIdxShownWhileBusy then s.seqIdx.val else 0
  else s.seqIdx.val

/-- `CSR_READ(k)` (R79, R29): register number `k`, zero-extended to 32 bits; no value for any other number. -/
def csrRead (s : State) (k : Nat) : Option (BitVec 32) :=
  match k with
  | 0 => some (BitVec.ofNat 32 (statusCode s.status))
  | 1 => some (BitVec.ofNat 32 (shownSeqIdx s))
  | 2 => some (BitVec.ofNat 32 s.nEff.val)
  | 3 => some (BitVec.ofNat 32 s.wrap.toNat)
  | 4 => some (BitVec.ofNat 32 s.outLen.val)
  | 5 => some (BitVec.ofNat 32 (faultCauseCode s.faultCause))
  | 6 => some (BitVec.ofNat 32 s.faultIndex.val)
  | _ => none

/-- The output `done` (R79): 1 exactly when `STATUS` is DONE or FAULT. -/
def doneOutput (s : State) : Bool := s.status = .done ∨ s.status = .fault

/-- What START leaves (R148), whatever the phase before it. -/
def started (img : List Word) (s : State) : State :=
  { s with
    img := some img, nEff := ⟨min img.length codeCapacity, by omega⟩, wrap := decide (codeCapacity ≤ img.length),
    seqIdx := 0, outLen := 0, faultCause := none, faultIndex := 0, prog := Memory.cleared, status := .busy }

/-- `START(n, img)` (R148), refused while BUSY (R190). -/
def start (img : List Word) (s : State) : Host.Outcome State Fault Refusal :=
  if s.status = .busy then .refused .startWhileBusy else .next (started img s)

/-- `RESET` (R181): every register and slot at its reset value and the image released, in every phase. The parser is
a parameter and stays (R183); the host's coming inputs stay (log 15). -/
def resetCommand (s : State) : Host.Outcome State Fault Refusal :=
  .next { State.reset with parser := s.parser, host := s.host }

/-- `CSR_READ(k)` as a transaction (R79): the value goes to the result port; nothing else changes (R50). -/
def csrReadCommand (k : Nat) (s : State) : Host.Outcome State Fault Refusal :=
  match csrRead s k with
  | some v => .next { s with result := some (.csr v) }
  | none => .refused .csrReadNoRegister

/-- `PROG_READ(j)` as a transaction (R79, R47): the record goes to the result port; nothing else changes (R50). -/
def progReadCommand (j : Nat) (s : State) : Host.Outcome State Fault Refusal :=
  match progRead s j with
  | some ins => .next { s with result := some (.prog ins) }
  | none => .refused .progReadNotReadable

/-- What the block does with a host's transaction (R186). -/
def command (c : Command) (s : State) : Host.Outcome State Fault Refusal :=
  match c with
  | .start img => start img s
  | .reset => resetCommand s
  | .csrRead k => csrReadCommand k s
  | .progRead j => progReadCommand j s

end Sys2Proof.Machine
end

