-- ==== Sys2Proof/Machine/Fetch.lean ====
section
/-! DEFINITION. What the sequencer does next (R149): which instruction it has fetched, and the set-up that makes a
given record the next one fetched. -/

namespace Sys2Proof.Machine

/-- The decode fault that a record with an unused code raises (R73, R138): an unused operand tag is an
EncodingViolation; an unused opcode is UnsupportedOpcode unless the destination faults first (R165). -/
def rejectCause : DecodeReject → FaultCause
  | .unusedDestinationTag _ => .encodingViolation
  | .unusedSourceTag _ => .encodingViolation
  | .unusedOpcode _ .reg => .unsupportedOpcode
  | .unusedOpcode _ .imm16 => .encodingViolation
  | .unusedOpcode _ .absStack => .unsupportedOpcode
  | .unusedOpcode _ .advSp => .unsupportedOpcode
  | .unusedOpcode _ .relStack => .unsupportedOpcode
  | .unusedOpcode _ .codePage => .encodingViolation

/-- The sequencer's next action. -/
inductive Fetched where
  /-- An instruction to run: a decoded word's (R150, R152), or the sentinel (R151). -/
  | instr (i : Instr)
  /-- A word whose record has an unused code (R73). -/
  | rejected (r : DecodeReject)
  /-- No step: IDLE, DONE or FAULT (R149). -/
  | waiting
  /-- No step in a state that no run reaches (log 12). -/
  | stuck (f : Fault)
deriving DecidableEq, Repr

/-- The sentinel `WRAP` selects (R33, R151). -/
def selectedSentinel (wrap : Bool) : Instr := if wrap then .jumpToBeginning else .endExecution

/-- The word at `SEQ_IDX` through the parser, with no check of its own (R162), and through the decoder. -/
def fetchWord (s : State) : Fetched :=
  match imageRead s s.seqIdx.val with
  | none => .stuck .imageWordAbsent
  | some w =>
    match decodePorts (parseWord s.parser w) with
    | .ok i => .instr i
    | .error r => .rejected r

/-- The sequencer's next action (R149): a word below `N_EFF`, the sentinel at `N_EFF`, nothing outside BUSY. -/
def fetch (s : State) : Fetched :=
  match s.status with
  | .busy =>
    if s.seqIdx.val < s.nEff.val then fetchWord s
    else if s.seqIdx.val = s.nEff.val then .instr (selectedSentinel s.wrap)
    else .stuck .sequencerPastEnd
  | .idle => .waiting
  | .done => .waiting
  | .fault => .waiting

/-- The host's set-up and START (R183, R148) for a one-word image whose word `w` parses to `p`, with no host input
pending, so that the next step runs that record (log 13). -/
def loadedWith (w : Word) (p : Ports) (s : State) : State :=
  started [w] { s with parser := (w, p) :: s.parser, host := [] }

end Sys2Proof.Machine
end

