-- ==== Sys2Proof/Machine/Step.lean ====
section
/-! DEFINITION. One step of the block: the host's transaction if one is due, else the sequencer's step. -/

namespace Sys2Proof.Machine

/-- The sequencer's step (R149 to R152): run what was fetched. A record with an unused code takes its decode fault
(R73); a waiting phase keeps the state (R178, log 7). -/
def sequencerStep (s : State) : Host.Outcome State Fault Refusal :=
  match fetch s with
  | .instr i => exec i s
  | .rejected r => takeFault (rejectCause r) s
  | .waiting => .next s
  | .stuck f => .fault f

/-- One step (R184, R186): the entry of `host` that is due is used up; a transaction takes the step in place of the
sequencer, and with none due the sequencer steps (log 5). -/
def step (s : State) : Host.Outcome State Fault Refusal :=
  match s.host with
  | [] => sequencerStep s
  | none :: rest => sequencerStep { s with host := rest }
  | some c :: rest => command c { s with host := rest }

/-- `s` set up so that the very next step runs the instruction whose bits, as the opcode table numbers them, are
`w` (log 13). The raw word that stands for it is the record's `opc` value. -/
def State.withFetchWord (s : State) (nbits w : Nat) : State :=
  loadedWith (BitVec.ofNat 64 (w % 2 ^ nbits % 32)) (portsOfTableBits nbits w) s

/-- `k` steps, stopping at the first fault or refusal. -/
def runSteps : Nat → State → Host.Outcome State Fault Refusal
  | 0, s => .next s
  | k + 1, s =>
    match step s with
    | .next t => runSteps k t
    | .fault r => .fault r
    | .refused r => .refused r

end Sys2Proof.Machine
end

