-- ==== Sys2Proof/Machine/Program.lean ====
section
/-! DEFINITION. The decode functions as the source gives them, without the sequencer's registers: DecodeFields and
DecodeWord (R76), and DecodeProgram (R140). -/

namespace Sys2Proof.Machine

/-- `Dispatch` (R76, R71): the construction point of each opcode tag. -/
def dispatch (t : OpcodeTag) (f : Fields) : WordResult :=
  match t with
  | .nop => nopRecord f
  | .add => binaryRecord .add f
  | .sub => binaryRecord .sub f
  | .mul => binaryRecord .mul f
  | .div => binaryRecord .div f
  | .xor => binaryRecord .xor f
  | .and => binaryRecord .and f
  | .or => binaryRecord .or f
  | .shl => binaryRecord .shl f
  | .shr => binaryRecord .shr f
  | .rol => binaryRecord .rol f
  | .ror => binaryRecord .ror f
  | .jump => jumpRecord f
  | .context => unsupportedRecord f
  | .ptrAdd => unsupportedRecord f
  | .ptrSub => unsupportedRecord f
  | .ptrPack => unsupportedRecord f
  | .ptrShrink => unsupportedRecord f
  | .nearCall => unsupportedRecord f
  | .log => unsupportedRecord f
  | .farCall => unsupportedRecord f
  | .ret => unsupportedRecord f
  | .uma => unsupportedRecord f
  | .invalid => unsupportedRecord f

/-- `DecodeFields` (R76), on bit-vector ports (R73). -/
def decodeFields (p : Ports) : WordResult :=
  match decodeParts p with
  | .ok t f => dispatch t f
  | .error r => .error (rejectCause r)

/-- `DecodeWord` (R76): a function of the word and the parser alone (R77). -/
def decodeWord (t : ParserTable) (w : Word) : WordResult := decodeFields (parseWord t w)

/-- The loop of `DecodeProgram` (R140): in ascending order, stopping at the first word that faults. -/
def decodeWords (t : ParserTable) : Nat → List Instruction → List Word → ProgramResult
  | _, acc, [] => .ok acc
  | i, acc, w :: ws =>
    match decodeWord t w with
    | .ok ins => decodeWords t (i + 1) (acc ++ [ins]) ws
    | .error c => .error c i

/-- The sentinel record of an image of `n` words (R140, R143). -/
def sentinelFor (n : Nat) : Instruction :=
  if codeCapacity ≤ n then .jumpToBeginning else .endExecution

/-- `DecodeProgram` (R140). -/
def decodeProgram (t : ParserTable) (img : List Word) : ProgramResult :=
  match decodeWords t 0 [] (img.take codeCapacity) with
  | .ok acc => .ok (acc ++ [sentinelFor img.length])
  | .error c i => .error c i

end Sys2Proof.Machine
end

