-- ==== Sys2Proof/Safety.lean ====
section
/-! DEFINITION. The terms claims are stated in: what the word step, the fault step and the sentinel step leave
(every field named), what reset leaves, and the invariant of the sequencer. -/

namespace Sys2Proof.Machine

/-- No transaction of the host is due at the next step: `host` is used up, or its entry is empty (log 5). -/
def NoTransactionDue (s : State) : Prop := ∀ c rest, s.host ≠ some c :: rest

/-- `s` with the host's entry that is due used up. -/
def afterHost (s : State) : State := { s with host := s.host.tail }

/-- The fields no step of the sequencer writes: `N_EFF`, `WRAP`, the image (R37, R43), and the model's own three. -/
def KeepsRest (s t : State) : Prop :=
  t.nEff = s.nEff ∧ t.wrap = s.wrap ∧ t.img = s.img ∧ t.parser = s.parser ∧ t.host = s.host ∧ t.result = s.result

/-- `t` is `s` after the word step that stores `ins` (R150): slot `SEQ_IDX` holds `ins`, every other slot is as it
was, `SEQ_IDX` is one more, and every other field is unchanged. -/
def StoresRecord (s t : State) (ins : Instruction) : Prop :=
  Memory.read t.prog s.seqIdx.val = some ins ∧
  (∀ j, j ≠ s.seqIdx.val → Memory.read t.prog j = Memory.read s.prog j) ∧
  t.seqIdx.val = s.seqIdx.val + 1 ∧
  t.status = s.status ∧ t.outLen = s.outLen ∧ t.faultCause = s.faultCause ∧ t.faultIndex = s.faultIndex ∧
  KeepsRest s t

/-- `t` is `s` after the fault step with cause `c` (R152): every slot is `None`, the cause and the word's index are
saved, `OUT_LEN` is 0, `STATUS` is FAULT, `SEQ_IDX` stays, and every other field is unchanged. -/
def TakesFault (s t : State) (c : FaultCause) : Prop :=
  (∀ j, Memory.read t.prog j = none) ∧
  t.faultCause = some c ∧ t.faultIndex.val = s.seqIdx.val ∧ t.outLen = 0 ∧ t.status = .fault ∧
  t.seqIdx = s.seqIdx ∧
  KeepsRest s t

/-- `t` is `s` after the sentinel step that stores `ins` (R151): slot `N_EFF` holds `ins`, every other slot is as it
was, `OUT_LEN` is `N_EFF + 1`, `STATUS` is DONE, and every other field is unchanged. -/
def StoresSentinel (s t : State) (ins : Instruction) : Prop :=
  Memory.read t.prog s.nEff.val = some ins ∧
  (∀ j, j ≠ s.nEff.val → Memory.read t.prog j = Memory.read s.prog j) ∧
  t.outLen.val = s.nEff.val + 1 ∧ t.status = .done ∧
  t.seqIdx = s.seqIdx ∧ t.faultCause = s.faultCause ∧ t.faultIndex = s.faultIndex ∧
  KeepsRest s t

/-- Every register and slot of the spec at its reset value, and no image held (R42). -/
def AtResetValues (s : State) : Prop :=
  s.status = .idle ∧ s.seqIdx = 0 ∧ s.nEff = 0 ∧ s.wrap = false ∧ s.outLen = 0 ∧ s.faultCause = none ∧
  s.faultIndex = 0 ∧ (∀ j, Memory.read s.prog j = none) ∧ s.img = none

/-- `s` works on the image `ws`: the snapshot, `N_EFF` and `WRAP` are those START(n, ws) set (R148). -/
def OnImage (ws : List Word) (s : State) : Prop :=
  s.img = some ws ∧ s.nEff.val = min ws.length codeCapacity ∧ s.wrap = decide (codeCapacity ≤ ws.length)

/-- Slots `0 .. k - 1` hold the decodes of the image words of the same index (R52, R142). -/
def DecodedBelow (ws : List Word) (k : Nat) (s : State) : Prop :=
  ∀ i < k, ∃ w ins, ws[i]? = some w ∧ decodeWord s.parser w = .ok ins ∧ Memory.read s.prog i = some ins

/-- What every reachable state of the sequencer satisfies, phase by phase (R30 to R38). -/
def SequencerInv (s : State) : Prop :=
  Memory.wf s.prog ∧ s.seqIdx.val ≤ s.nEff.val ∧
  match s.status with
  | .idle => AtResetValues s
  | .busy =>
    ∃ ws, OnImage ws s ∧ s.outLen = 0 ∧ s.faultCause = none ∧ s.faultIndex = 0 ∧
      DecodedBelow ws s.seqIdx.val s ∧ ∀ j, s.seqIdx.val ≤ j → Memory.read s.prog j = none
  | .done =>
    ∃ ws, OnImage ws s ∧ s.seqIdx = s.nEff ∧ s.outLen.val = s.nEff.val + 1 ∧ s.faultCause = none ∧
      s.faultIndex = 0 ∧ DecodedBelow ws s.nEff.val s ∧
      Memory.read s.prog s.nEff.val = some (sentinelFor ws.length) ∧
      ∀ j, s.nEff.val < j → Memory.read s.prog j = none
  | .fault =>
    ∃ ws c w, OnImage ws s ∧ s.seqIdx.val < s.nEff.val ∧ s.outLen = 0 ∧ s.faultCause = some c ∧
      s.faultIndex.val = s.seqIdx.val ∧ ws[s.seqIdx.val]? = some w ∧ decodeWord s.parser w = .error c ∧
      (∀ i < s.seqIdx.val, ∃ v ins, ws[i]? = some v ∧ decodeWord s.parser v = .ok ins) ∧
      ∀ j, Memory.read s.prog j = none

/-- The register index a source operand names, if it names one (R19). -/
def AnySource.registers : AnySource → List Register
  | .register1 r => [r]
  | .immediate1 _ => []
  | .absoluteStack p => [p.reg]
  | .advanceStackPointer p => [p.reg]
  | .relativeStack p => [p.reg]
  | .codePage p => [p.reg]

/-- The register index a destination operand names (R20). -/
def AnyDestination.registers : AnyDestination → List Register
  | .register1 r => [r]
  | .absoluteStack p => [p.reg]
  | .advanceStackPointer p => [p.reg]
  | .relativeStack p => [p.reg]

/-- Every register index a record names (R24). -/
def Instruction.registers : Instruction → List Register
  | .binary _ src src2 dst dst2 _ _ _ => src.registers ++ [src2] ++ dst.registers ++ dst2.toList
  | .jump target _ => target.registers
  | .nop pop push _ => [pop.reg, push.reg]
  | .jumpToBeginning => []
  | .endExecution => []

/-- A stack-like pair with its register index renamed (R17). -/
def renamePair (g : Register → Register) (p : StackLikeParameters) : StackLikeParameters := ⟨p.offset, g p.reg⟩

/-- A source operand with its register index renamed (R19). -/
def renameSource (g : Register → Register) : AnySource → AnySource
  | .register1 r => .register1 (g r)
  | .immediate1 v => .immediate1 v
  | .absoluteStack p => .absoluteStack (renamePair g p)
  | .advanceStackPointer p => .advanceStackPointer (renamePair g p)
  | .relativeStack p => .relativeStack (renamePair g p)
  | .codePage p => .codePage (renamePair g p)

/-- A destination operand with its register index renamed (R20). -/
def renameDestination (g : Register → Register) : AnyDestination → AnyDestination
  | .register1 r => .register1 (g r)
  | .absoluteStack p => .absoluteStack (renamePair g p)
  | .advanceStackPointer p => .advanceStackPointer (renamePair g p)
  | .relativeStack p => .relativeStack (renamePair g p)

/-- A record with every register index renamed and all else as it was (R24). -/
def renameRecord (g : Register → Register) : Instruction → Instruction
  | .binary op src src2 dst dst2 pred sw sf =>
    .binary op (renameSource g src) (g src2) (renameDestination g dst) (dst2.map g) pred sw sf
  | .jump target pred => .jump (renameSource g target) pred
  | .nop pop push pred => .nop (renamePair g pop) (renamePair g push) pred
  | .jumpToBeginning => .jumpToBeginning
  | .endExecution => .endExecution

/-- A word's result with every register index of its record renamed; a fault has none (R27). -/
def renameResult (g : Register → Register) : WordResult → WordResult
  | .ok ins => .ok (renameRecord g ins)
  | .error c => .error c

/-- A parsed record with its four register ports renamed (R62). -/
def renamePorts (g : Register → Register) (p : Ports) : Ports :=
  { p with rSrc0 := g p.rSrc0, rSrc1 := g p.rSrc1, rDst0 := g p.rDst0, rDst1 := g p.rDst1 }

/-- The store with every record in it renamed. -/
def renameStore (g : Register → Register) (m : Memory) : Memory := m.map fun c => (c.1, renameRecord g c.2)

/-- The state with the parser `tbl` in place of its own and every stored record renamed. -/
def renamed (g : Register → Register) (tbl : ParserTable) (s : State) : State :=
  { s with parser := tbl, prog := renameStore g s.prog }

/-- The four register ports of a parsed record (R62). -/
def portRegisters (p : Ports) : List Register := [p.rSrc0, p.rSrc1, p.rDst0, p.rDst1]

/-- Every register index that the record in slot `j` names is copied from a register port of image word `j`, or is
the index 0 of a no-op's placeholder (R16, R120). -/
def RegistersCopied (s : State) : Prop :=
  ∀ j ins, (j, ins) ∈ s.prog → ∀ r ∈ ins.registers,
    (∃ w, imageRead s j = some w ∧ r ∈ portRegisters (parseWord s.parser w)) ∨
      (r = 0 ∧ ∃ pop push pred, ins = .nop pop push pred)

end Sys2Proof.Machine
end

