-- ==== Sys2Proof/Certificates/Slice0/Obligations.lean ====
section
/-! DEFINITION. The statements for the provers: each docstring names the rule of spec/ it formalises. -/

namespace Sys2Proof.Machine

/-- The instruction `mk` builds `record` (R76): where a word step is enabled, a word whose destination resolves to
`d` completes by storing the record, with everything else unchanged; a word whose destination tag is IMM16 or
CODE_PAGE takes EncodingViolation (R88, R89). -/
def BuildsRecord (mk : Fields → Instr) (record : Fields → AnyDestination → Instruction) : Prop :=
  ∀ f s, WordStepEnabled s →
    (∀ d, destinationOf f = .ok d → ∃ t, exec (mk f) s = .next t ∧ StoresRecord s t (record f d)) ∧
    (f.dst0Tag = .imm16 ∨ f.dst0Tag = .codePage →
      ∃ t, exec (mk f) s = .next t ∧ TakesFault s t .encodingViolation)

/-- The record of a binary operation that binds `dst2` (R99). -/
def binaryWith (op : BinOp) (dst2 : Fields → Option Register) (f : Fields) (d : AnyDestination) : Instruction :=
  .binary op (sourceOf f) f.rSrc1 d (dst2 f) (mapPredicate f.cond) f.swap f.setFlags

/-- The eleven unimplemented families (R126). -/
def unimplemented : List (Fields → Instr) :=
  [.context, .ptrAdd, .ptrSub, .ptrPack, .ptrShrink, .nearCall, .log, .farCall, .ret, .uma, .invalid]

/-- The 24 opcode codes of R63, written out, each with the instruction it selects. -/
def opcodeRows : List (BitVec 5 × (Fields → Instr)) :=
  [(0b00000, .nop), (0b00001, .add), (0b00010, .sub), (0b00011, .mul), (0b00100, .div), (0b00101, .xor),
    (0b00110, .and), (0b00111, .or), (0b01000, .shl), (0b01001, .shr), (0b01010, .rol), (0b01011, .ror)] ++
  [(0b01100, .jump), (0b01101, .context), (0b01110, .ptrAdd), (0b01111, .ptrSub), (0b10000, .ptrPack),
    (0b10001, .ptrShrink), (0b10010, .nearCall), (0b10011, .log), (0b10100, .farCall), (0b10101, .ret),
    (0b10110, .uma), (0b10111, .invalid)]

/-- The six operand-tag codes of R64, written out. -/
def tagRows : List (BitVec 3 × OperandTag) :=
  [(0b000, .reg), (0b001, .imm16), (0b010, .absStack), (0b011, .advSp), (0b100, .relStack), (0b101, .codePage)]

/-- The eight condition codes of R65, written out. -/
def condRows : List (BitVec 3 × CondCode) :=
  [(0b000, .c0), (0b001, .c1), (0b010, .c2), (0b011, .c3), (0b100, .c4), (0b101, .c5), (0b110, .c6), (0b111, .c7)]

/-- The host's entry due at the next step neither starts a decode nor resets the block. -/
def NoRestartDue (s : State) : Prop :=
  ∀ c rest, s.host = some c :: rest → c ≠ .reset ∧ ∀ img, c ≠ .start img

end Sys2Proof.Machine

open Sys2Proof Sys2Proof.Machine

/-! ### Reset and the host's ports -/

/-- R42, R181: power-on reset and the RESET command, accepted in every state, leave every register and slot at its
reset value and no image. -/
def Obligations.ResetRestoresResetValues : Prop :=
  AtResetValues State.reset ∧
  ∀ s, ∃ t, command .reset s = .next t ∧ AtResetValues t

/-- R148, R190: START outside BUSY sets the registers, clears the store, takes the image and makes the block BUSY;
START while BUSY is refused. -/
def Obligations.StartSetsUpDecode : Prop :=
  ∀ img s,
    (s.status ≠ .busy → ∃ t, command (.start img) s = .next t ∧
      t.img = some img ∧ t.nEff.val = min img.length codeCapacity ∧
      (t.wrap = true ↔ codeCapacity ≤ img.length) ∧ t.seqIdx = 0 ∧ t.outLen = 0 ∧ t.faultCause = none ∧
      t.faultIndex = 0 ∧ (∀ j, Memory.read t.prog j = none) ∧ t.status = .busy ∧
      t.parser = s.parser ∧ t.host = s.host ∧ t.result = s.result) ∧
    (s.status = .busy → command (.start img) s = .refused .startWhileBusy)

/-- R79, R29: a CSR_READ below 7 returns the register zero-extended to 32 bits and changes nothing but the result
port; CSR_READ(7) is refused, and so is a larger number (log 16). While BUSY, `SEQ_IDX` is shown as itself or as 0
(R158; log 8), so this statement is the model's choice there. `done` is 1 exactly in DONE and FAULT. -/
def Obligations.StatusReadsReturnRegisters : Prop :=
  (∀ s, doneOutput s = true ↔ s.status = .done ∨ s.status = .fault) ∧
  ∀ s k, (7 ≤ k → command (.csrRead k) s = .refused .csrReadNoRegister) ∧
    (k < 7 → ∃ v : BitVec 32, command (.csrRead k) s = .next { s with result := some (.csr v) } ∧
      (k = 0 → v.toNat = match s.status with | .idle => 0 | .busy => 1 | .done => 2 | .fault => 3) ∧
      (k = 1 → s.status ≠ .busy → v.toNat = s.seqIdx.val) ∧
      (k = 1 → s.status = .busy → v.toNat = s.seqIdx.val ∨ v.toNat = 0) ∧
      (k = 2 → v.toNat = s.nEff.val) ∧
      (k = 3 → v.toNat = if s.wrap then 1 else 0) ∧
      (k = 4 → v.toNat = s.outLen.val) ∧
      (k = 5 → v.toNat = match s.faultCause with
        | none => 0 | some .encodingViolation => 1 | some .unsupportedOpcode => 2) ∧
      (k = 6 → v.toNat = s.faultIndex.val))

/-- R47, R189: PROG_READ(j) returns the record in DONE with `j < OUT_LEN` where slot `j` holds one, changing nothing
but the result port (the model's place for a read's value, log 6); in every other case it is refused. The third
clause is the sentence of R47 that the spec marks as its own inference from R150 and R151: in DONE every slot below
`OUT_LEN` of a state that meets the sequencer's invariant holds a record. -/
def Obligations.ProgReadsOnlyInDone : Prop :=
  ∀ s j,
    (∀ ins, s.status = .done → j < s.outLen.val → Memory.read s.prog j = some ins →
      command (.progRead j) s = .next { s with result := some (.prog ins) }) ∧
    (s.status ≠ .done ∨ s.outLen.val ≤ j ∨ Memory.read s.prog j = none →
      command (.progRead j) s = .refused .progReadNotReadable) ∧
    (SequencerInv s → s.status = .done → j < s.outLen.val → ∃ ins, Memory.read s.prog j = some ins)

/-- The model's choice (log 5): a transaction that is due takes the step, and the sequencer does not step. -/
def Obligations.DueTransactionTakesTheStep : Prop :=
  ∀ s c rest, s.host = some c :: rest → step s = command c { s with host := rest }

/-! ### Encoding and decoding -/

/-- Every well-formed instruction has an encoding, and decoding it gives the instruction back, for every instruction
a word can encode and every value of every operand its port can carry (R62 to R67). -/
def Obligations.DecodeInvertsEncode : Prop :=
  ∀ i, i.WellFormed → ∃ p, encode i = some p ∧ decodePorts p = .ok i

/-- Each instruction has one encoding, no encoding decodes to a sentinel, and exactly the two sentinels have none
(R62 to R65, R71). -/
def Obligations.EncodeInvertsDecode : Prop :=
  (∀ p i, decodePorts p = .ok i → encode i = some p) ∧
  ∀ i, encode i = none ↔ i = .jumpToBeginning ∨ i = .endExecution

/-- R63, R64, R65: a record with any of the 24 opcode codes, any of the six codes on each operand tag and any of the
eight condition codes, each written out bit by bit from the spec's tables, decodes to the instruction the codes
stand for, for every value of the other ports (R62), which it carries unchanged. -/
def Obligations.SpecRecordsDecode : Prop :=
  ∀ o ∈ opcodeRows, ∀ a ∈ tagRows, ∀ b ∈ tagRows, ∀ k ∈ condRows,
    ∀ (imm0 imm1 : Imm) (rSrc0 rSrc1 rDst0 rDst1 : Register) (swap setFlags : Bool),
      decodePorts ⟨o.1, a.1, b.1, imm0, imm1, rSrc0, rSrc1, rDst0, rDst1, k.1, swap, setFlags⟩ =
        .ok (o.2 ⟨a.2, b.2, imm0, imm1, rSrc0, rSrc1, rDst0, rDst1, k.2, swap, setFlags⟩)

/-- R61 (the spec's own reading D2 of the source's all-zero word): whatever the parser, word 0 parses to the all-zero
record and decodes to the no-op with zero adjustments (spec/95 T2). -/
def Obligations.ZeroWordIsNop : Prop :=
  ∀ t : ParserTable,
    parseWord t 0 = ⟨0, 0, 0, 0, 0, 0, 0, 0, 0, 0, false, false⟩ ∧
    decodeWord t 0 = .ok (.nop ⟨0, 0⟩ ⟨0, 0⟩ .always)

/-- R73, R138: on bit-vector ports an unused operand-tag code is an EncodingViolation, and an unused opcode code is
UnsupportedOpcode unless the destination faults first (R165). -/
def Obligations.UnusedCodesFault : Prop :=
  ∀ p : Ports,
    (6 ≤ p.src0Tag.toNat ∨ 6 ≤ p.dst0Tag.toNat → decodeFields p = .error .encodingViolation) ∧
    (24 ≤ p.opc.toNat → p.src0Tag.toNat < 6 → p.dst0Tag.toNat < 6 →
      decodeFields p =
        if p.dst0Tag.toNat = 1 ∨ p.dst0Tag.toNat = 5 then .error .encodingViolation else .error .unsupportedOpcode)

/-- R89, R88: any record whose destination tag is IMM16 or CODE_PAGE decodes to EncodingViolation, whatever its
opcode and its other ports. -/
def Obligations.DestinationFaultIsUnconditional : Prop :=
  ∀ p : Ports, p.dst0Tag.toNat = 1 ∨ p.dst0Tag.toNat = 5 → decodeFields p = .error .encodingViolation

/-- R115: a record with a binary opcode raises EncodingViolation exactly where its destination tag is IMM16 or
CODE_PAGE or one of its operand tags is unused; else it decodes to a Binary record. -/
def Obligations.BinaryFaultSet : Prop :=
  ∀ p : Ports, 1 ≤ p.opc.toNat → p.opc.toNat ≤ 11 →
    (decodeFields p = .error .encodingViolation ↔
      p.dst0Tag.toNat = 1 ∨ p.dst0Tag.toNat = 5 ∨ 6 ≤ p.dst0Tag.toNat ∨ 6 ≤ p.src0Tag.toNat) ∧
    (decodeFields p ≠ .error .encodingViolation →
      ∃ op src src2 dst dst2 pred sw sf, decodeFields p = .ok (.binary op src src2 dst dst2 pred sw sf))

/-- R70: a port that the table of R70 does not list for a family changes nothing of what that family decodes to:
the binary family reads all but `r_dst1`, which only MUL and DIV read; JUMP the source ports and `cond`; NOP the
source and destination ports and `cond`; the unimplemented families and the unused codes no port but the tags. -/
def Obligations.FamiliesReadOnlyTheirFields : Prop :=
  ∀ p q : Ports, p.opc = q.opc → p.src0Tag = q.src0Tag → p.dst0Tag = q.dst0Tag →
    (1 ≤ p.opc.toNat → p.opc.toNat ≤ 11 → p.imm0 = q.imm0 → p.rSrc0 = q.rSrc0 → p.rSrc1 = q.rSrc1 →
      p.imm1 = q.imm1 → p.rDst0 = q.rDst0 → p.cond = q.cond → p.swap = q.swap → p.setFlags = q.setFlags →
      (p.opc.toNat = 3 ∨ p.opc.toNat = 4 → p.rDst1 = q.rDst1) → decodeFields p = decodeFields q) ∧
    (p.opc.toNat = 12 → p.imm0 = q.imm0 → p.rSrc0 = q.rSrc0 → p.cond = q.cond →
      decodeFields p = decodeFields q) ∧
    (p.opc.toNat = 0 → p.imm0 = q.imm0 → p.rSrc0 = q.rSrc0 → p.imm1 = q.imm1 → p.rDst0 = q.rDst0 →
      p.cond = q.cond → decodeFields p = decodeFields q) ∧
    (13 ≤ p.opc.toNat → decodeFields p = decodeFields q)

/-! ### Predicates and operands -/

/-- R81, R82: the eight condition codes map one to one onto the eight predicates, in the listing order. -/
def Obligations.PredicateRenaming : Prop :=
  (∀ k : BitVec 3, mapPredicate (CondCode.ofCode k) =
    match k.toNat with
    | 0 => .always | 1 => .ifGT | 2 => .ifLT | 3 => .ifEQ | 4 => .ifGE | 5 => .ifLE | 6 => .ifNotEQ
    | _ => .ifGtOrLT) ∧
  (∀ j k : BitVec 3, mapPredicate (CondCode.ofCode j) = mapPredicate (CondCode.ofCode k) → j = k) ∧
  ∀ q : Predicate, ∃ k : BitVec 3, mapPredicate (CondCode.ofCode k) = q

/-- R84, R86: the source resolver on each of the six tags; and R66, R67, R90: a word's source operand is made of its
`src0_tag`, `imm0` and `r_src0`, whatever its other fields hold. -/
def Obligations.SourceResolution : Prop :=
  (∀ imm r,
    resolveSource .reg imm r = .register1 r ∧
    resolveSource .imm16 imm r = .immediate1 imm ∧
    resolveSource .absStack imm r = .absoluteStack ⟨imm, r⟩ ∧
    resolveSource .advSp imm r = .advanceStackPointer ⟨imm, r⟩ ∧
    resolveSource .relStack imm r = .relativeStack ⟨imm, r⟩ ∧
    resolveSource .codePage imm r = .codePage ⟨imm, r⟩) ∧
  ∀ f : Fields, sourceOf f =
    match f.src0Tag with
    | .reg => .register1 f.rSrc0
    | .imm16 => .immediate1 f.imm0
    | .absStack => .absoluteStack ⟨f.imm0, f.rSrc0⟩
    | .advSp => .advanceStackPointer ⟨f.imm0, f.rSrc0⟩
    | .relStack => .relativeStack ⟨f.imm0, f.rSrc0⟩
    | .codePage => .codePage ⟨f.imm0, f.rSrc0⟩

/-- R87, R88: the destination resolver on each of the six tags; and R66, R67, R90: a word's destination operand is
made of its `dst0_tag`, `imm1` and `r_dst0`, whatever its other fields hold. -/
def Obligations.DestinationResolution : Prop :=
  (∀ imm r,
    resolveDestination .reg imm r = .ok (.register1 r) ∧
    resolveDestination .imm16 imm r = .error .encodingViolation ∧
    resolveDestination .absStack imm r = .ok (.absoluteStack ⟨imm, r⟩) ∧
    resolveDestination .advSp imm r = .ok (.advanceStackPointer ⟨imm, r⟩) ∧
    resolveDestination .relStack imm r = .ok (.relativeStack ⟨imm, r⟩) ∧
    resolveDestination .codePage imm r = .error .encodingViolation) ∧
  ∀ f : Fields, destinationOf f =
    match f.dst0Tag with
    | .reg => .ok (.register1 f.rDst0)
    | .imm16 => .error .encodingViolation
    | .absStack => .ok (.absoluteStack ⟨f.imm1, f.rDst0⟩)
    | .advSp => .ok (.advanceStackPointer ⟨f.imm1, f.rDst0⟩)
    | .relStack => .ok (.relativeStack ⟨f.imm1, f.rDst0⟩)
    | .codePage => .error .encodingViolation

/-- R91: every source value and every destination value is produced by some field triple. -/
def Obligations.EveryOperandIsReachable : Prop :=
  (∀ a, ∃ tag imm r, resolveSource tag imm r = a) ∧
  ∀ d, ∃ tag imm r, resolveDestination tag imm r = .ok d

/-! ### The families: result, completion and frame -/

/-- R101, R102, R105 to R111: ADD, SUB, XOR, AND, OR, SHL, SHR, ROL and ROR build their record with an empty second
destination, and nothing else changes. -/
def Obligations.SingleDestinationBinaryRecords : Prop :=
  BuildsRecord .add (binaryWith .add fun _ => none) ∧
  BuildsRecord .sub (binaryWith .sub fun _ => none) ∧
  BuildsRecord .xor (binaryWith .xor fun _ => none) ∧
  BuildsRecord .and (binaryWith .and fun _ => none) ∧
  BuildsRecord .or (binaryWith .or fun _ => none) ∧
  BuildsRecord .shl (binaryWith .shl fun _ => none) ∧
  BuildsRecord .shr (binaryWith .shr fun _ => none) ∧
  BuildsRecord .rol (binaryWith .rol fun _ => none) ∧
  BuildsRecord .ror (binaryWith .ror fun _ => none)

/-- R103, R104: MUL and DIV build their record with the word's second destination register. -/
def Obligations.MulDivRecords : Prop :=
  BuildsRecord .mul (binaryWith .mul fun f => some f.rDst1) ∧
  BuildsRecord .div (binaryWith .div fun f => some f.rDst1)

/-- R116, R117: JUMP builds its record from the target and the predicate; its destination is resolved for its fault
only. -/
def Obligations.JumpRecords : Prop :=
  BuildsRecord .jump fun f _ => .jump (sourceOf f) (mapPredicate f.cond)

/-- R117, R118: two JUMP words with a valid destination that agree on the source fields and the condition have the
same effect, whatever their other fields hold. -/
def Obligations.JumpIgnoresOtherFields : Prop :=
  ∀ f g s d e, destinationOf f = .ok d → destinationOf g = .ok e →
    f.src0Tag = g.src0Tag → f.imm0 = g.imm0 → f.rSrc0 = g.rSrc0 → f.cond = g.cond →
    exec (.jump f) s = exec (.jump g) s

/-- R121, R122, R123: NOP builds its record from the two stack-pointer adjustments and the predicate: each side is
the word's own pair where its tag is ADV_SP, and `SLP(0, 0)` otherwise. -/
def Obligations.NopRecords : Prop :=
  BuildsRecord .nop fun f _ =>
    .nop (if f.src0Tag = .advSp then ⟨f.imm0, f.rSrc0⟩ else ⟨0, 0⟩)
      (if f.dst0Tag = .advSp then ⟨f.imm1, f.rDst0⟩ else ⟨0, 0⟩) (mapPredicate f.cond)

/-- R126 to R137: each of the eleven unimplemented families takes UnsupportedOpcode, or EncodingViolation where its
destination tag is IMM16 or CODE_PAGE; that fault step is its whole effect. -/
def Obligations.UnimplementedFamiliesFault : Prop :=
  ∀ mk ∈ unimplemented, ∀ f s, WordStepEnabled s →
    ∃ t, exec (mk f) s = .next t ∧
      TakesFault s t
        (if f.dst0Tag = .imm16 ∨ f.dst0Tag = .codePage then .encodingViolation else .unsupportedOpcode)

/-- R151: where the sentinel step is enabled, the sentinel that WRAP selects is stored at `N_EFF` and the decode is
DONE: JumpToBeginning for WRAP = 1, EndExecution for WRAP = 0. -/
def Obligations.SentinelsComplete : Prop :=
  ∀ s, s.status = .busy → s.seqIdx.val = s.nEff.val →
    (s.wrap = true → ∃ t, exec .jumpToBeginning s = .next t ∧ StoresSentinel s t .jumpToBeginning) ∧
    (s.wrap = false → ∃ t, exec .endExecution s = .next t ∧ StoresSentinel s t .endExecution)

/-- The model's choice (log 11), after R149: an instruction run where its step is not enabled stops the model, and
it never stops it otherwise. -/
def Obligations.InstructionsStopOnlyWhenNotEnabled : Prop :=
  ∀ i s,
    ((∃ t f, i.parts = some (t, f)) → ¬ WordStepEnabled s → exec i s = .fault .wordStepNotEnabled) ∧
    (i = .jumpToBeginning → ¬ SentinelStepEnabled true s → exec i s = .fault .sentinelStepNotEnabled) ∧
    (i = .endExecution → ¬ SentinelStepEnabled false s → exec i s = .fault .sentinelStepNotEnabled) ∧
    ((∃ t, exec i s = .next t) ↔
      ((∃ t f, i.parts = some (t, f)) ∧ WordStepEnabled s) ∨ (i = .jumpToBeginning ∧ SentinelStepEnabled true s) ∨
        (i = .endExecution ∧ SentinelStepEnabled false s))

/-- The frame of all 26 instructions (R150, R151, R152): nothing writes `N_EFF`, `WRAP`, the image, the parser or the
host's side; a step that does not take a fault leaves the fault registers and every slot but slot `SEQ_IDX` as they
were; a step that goes on leaves `OUT_LEN`; a step that ends the decode leaves `SEQ_IDX`. -/
def Obligations.ExecFrame : Prop :=
  ∀ i s t, exec i s = .next t →
    KeepsRest s t ∧
    (t.status ≠ .fault → t.faultCause = s.faultCause ∧ t.faultIndex = s.faultIndex ∧
      ∀ j, j ≠ s.seqIdx.val → Memory.read t.prog j = Memory.read s.prog j) ∧
    (t.status = .busy → t.outLen = s.outLen) ∧
    (t.status ≠ .busy → t.seqIdx = s.seqIdx)

/-! ### The sequencer's step -/

/-- R150, R162 (with the host's entry as log 5 has it): where the word at `SEQ_IDX` decodes to an instruction and no
transaction is due, the step is that instruction's meaning, after the host's entry, if one is due, is used up. -/
def Obligations.StepRunsDecodedWord : Prop :=
  ∀ s w i, NoTransactionDue s → WordStepEnabled s → imageRead s s.seqIdx.val = some w →
    decodePorts (parseWord s.parser w) = .ok i → step s = exec i (afterHost s)

/-- R151 (with the host's entry as log 5 has it): at `N_EFF` the step is the meaning of the sentinel WRAP selects. -/
def Obligations.StepRunsSelectedSentinel : Prop :=
  ∀ s, NoTransactionDue s → s.status = .busy → s.seqIdx.val = s.nEff.val →
    step s = exec (if s.wrap then .jumpToBeginning else .endExecution) (afterHost s)

/-- The word step of R150, on the block's own step, after the host's entry, if one is due, is used up: that entry's
use is the model's choice (log 5) and no part of R150. -/
def Obligations.WordStepStoresRecord : Prop :=
  ∀ s w ins, NoTransactionDue s → s.status = .busy → s.seqIdx.val < s.nEff.val →
    imageRead s s.seqIdx.val = some w → decodeWord s.parser w = .ok ins →
    ∃ t, step s = .next t ∧ StoresRecord (afterHost s) t ins

/-- The fault step of R152, on the block's own step, after the host's entry, if one is due, is used up: that entry's
use is the model's choice (log 5) and no part of R152. -/
def Obligations.FaultStepDiscardsProgram : Prop :=
  ∀ s w c, NoTransactionDue s → s.status = .busy → s.seqIdx.val < s.nEff.val →
    imageRead s s.seqIdx.val = some w → decodeWord s.parser w = .error c →
    ∃ t, step s = .next t ∧ TakesFault (afterHost s) t c

/-- The sentinel step of R151, on the block's own step, after the host's entry, if one is due, is used up: that
entry's use is the model's choice (log 5) and no part of R151. -/
def Obligations.SentinelStepEndsDecode : Prop :=
  ∀ s, NoTransactionDue s → s.status = .busy → s.seqIdx.val = s.nEff.val →
    ∃ t, step s = .next t ∧
      StoresSentinel (afterHost s) t (if s.wrap then .jumpToBeginning else .endExecution)

/-- The model's choice (log 7), after R149 and R178: outside BUSY, with no transaction due, the block waits and
every field but the host's entry stays. -/
def Obligations.WaitingPhasesKeepState : Prop :=
  ∀ s, NoTransactionDue s → s.status ≠ .busy → step s = .next (afterHost s)

/-- The table word whose `opc` port is `w` is run by the very next step after `withFetchWord` (log 13), from every
state. -/
def Obligations.TableWordsRunNext : Prop :=
  ∀ (s : State) w i, decodeTableWord 8 w = some i →
    step (s.withFetchWord 8 w) = exec i (s.withFetchWord 8 w) ∧ WordStepEnabled (s.withFetchWord 8 w)

/-! ### Invariants of every step -/

/-- The sequencer's invariant holds right after reset (R42). -/
def Obligations.ResetMeetsSequencerInvariant : Prop := SequencerInv State.reset

/-- Every step keeps the sequencer's invariant (R30 to R38, R48, R52): in every phase the registers, the fault record
and every slot of the store are what the rules say, the host's transactions included. -/
def Obligations.StepKeepsSequencerInvariant : Prop :=
  ∀ s t, SequencerInv s → step s = .next t → SequencerInv t

/-- In a state that meets the sequencer's invariant no step stops with a fault of the model (log 11, log 12): the
sequencer always has an enabled step while BUSY (R149, R194). -/
def Obligations.InvariantExcludesStuckStates : Prop :=
  ∀ s, SequencerInv s → ∀ r, step s ≠ .fault r

/-- Every step keeps the store's canonical form, from every state that has it. The strictly rising list is the model's
own form of the store (log 9); that no slot stands past CODE_CAPACITY is R43's index range. -/
def Obligations.StepKeepsStoreCanonical : Prop :=
  ∀ s t, Memory.wf s.prog → step s = .next t → Memory.wf t.prog

/-- R16, R86, R90: the block computes nothing from a register index and never looks at one. For every renaming `g` of
the register indices that keeps the 0 of the no-op's placeholder (R120), injective or not, renaming a word's four
register ports renames its result and changes neither whether it faults nor anything else in it; and where the
parser gives the word at `SEQ_IDX` renamed ports, over a store of renamed records, the step (word step or fault step)
leads to the renamed state: no other field differs. -/
def Obligations.RegisterRenamingCommutes : Prop :=
  ∀ g : Register → Register, g 0 = 0 →
    (∀ p, decodeFields (renamePorts g p) = renameResult g (decodeFields p)) ∧
    ∀ s w tbl, NoTransactionDue s → WordStepEnabled s → imageRead s s.seqIdx.val = some w →
      parseWord tbl w = renamePorts g (parseWord s.parser w) →
      ∃ t, step s = .next t ∧ step (renamed g tbl s) = .next (renamed g tbl t)

/-- R16, R86: the block only copies register indices. At reset and after every step, the indices named by the record
in slot `j` are indices on the register ports of image word `j`, or the 0 of a no-op's placeholder (R120). -/
def Obligations.StepKeepsRegistersCopied : Prop :=
  RegistersCopied State.reset ∧ ∀ s t, RegistersCopied s → step s = .next t → RegistersCopied t

/-- R155: in DONE every index below `OUT_LEN` holds a record; each but the last has a successor below `OUT_LEN` and
is no sentinel; the last is a sentinel. -/
def Obligations.DoneProgramHasSuccessors : Prop :=
  ∀ s, SequencerInv s → s.status = .done → 0 < s.outLen.val ∧
    ∀ j, j < s.outLen.val → ∃ ins, Memory.read s.prog j = some ins ∧
      ((j + 1 < s.outLen.val ∧ ins ≠ .jumpToBeginning ∧ ins ≠ .endExecution) ∨
        (j + 1 = s.outLen.val ∧ (ins = .jumpToBeginning ∨ ins = .endExecution)))

/-- R167: in FAULT no slot of PROG can be read, `OUT_LEN` is 0, and every PROG_READ is refused. -/
def Obligations.FaultLeavesNoPartialOutput : Prop :=
  ∀ s, SequencerInv s → s.status = .fault → s.outLen = 0 ∧
    ∀ j, Memory.read s.prog j = none ∧ command (.progRead j) s = .refused .progReadNotReadable

/-- R159: a result lasts until the next START or RESET: in DONE every readable slot stays readable and unchanged; in
FAULT nothing becomes readable. -/
def Obligations.ResultLastsUntilRestart : Prop :=
  ∀ s t, NoRestartDue s → step s = .next t →
    (s.status = .done → t.status = .done ∧ t.outLen = s.outLen ∧ ∀ j, progRead t j = progRead s j) ∧
    (s.status = .fault → t.status = .fault ∧ ∀ j, progRead t j = none)

/-- R169, R178: FAULT is left only by START (a new decode) or RESET, and START goes to BUSY, RESET to IDLE. -/
def Obligations.OnlyStartOrResetLeavesFault : Prop :=
  ∀ s t, s.status = .fault → step s = .next t → t.status ≠ .fault →
    (∃ img rest, s.host = some (.start img) :: rest ∧ t.status = .busy) ∨
    (∃ rest, s.host = some .reset :: rest ∧ t.status = .idle)

/-- R186: the block refuses nothing but a host's misuse: START while BUSY, a CSR_READ of no register, a PROG_READ of
no readable slot. No instruction is ever refused. -/
def Obligations.OnlyHostMisuseIsRefused : Prop :=
  ∀ s r, step s = .refused r →
    (∃ img rest, s.host = some (.start img) :: rest ∧ s.status = .busy ∧ r = .startWhileBusy) ∨
    (∃ k rest, s.host = some (.csrRead k) :: rest ∧ 7 ≤ k ∧ r = .csrReadNoRegister) ∨
    (∃ j rest, s.host = some (.progRead j) :: rest ∧ progRead s j = none ∧ r = .progReadNotReadable)

/-- R183: the parser is a parameter: no step changes it, the host's transactions included. -/
def Obligations.ParserIsAParameter : Prop := ∀ s t, step s = .next t → t.parser = s.parser

/-- The image snapshot, `N_EFF` and `WRAP` change only by START or RESET: START sets them (R32, R33, R148), and the word,
fault and sentinel steps do not write them (R150 to R152). That the snapshot stays after DONE or FAULT is the model's
deduction (log 10): R37 does not say when it is dropped. -/
def Obligations.ImageIsASnapshot : Prop :=
  ∀ s t, NoRestartDue s → step s = .next t → t.img = s.img ∧ t.nEff = s.nEff ∧ t.wrap = s.wrap

/-! ### DecodeProgram, and the machine against it -/

/-- R141, after conflict C1: a successful decode has `min(n, CODE_CAPACITY) + 1` records. -/
def Obligations.LengthLaw : Prop :=
  ∀ t img prog, decodeProgram t img = .ok prog → prog.length = min img.length codeCapacity + 1

/-- R142, after conflict C2: each consumed word of a successful decode has its decode at its own index. -/
def Obligations.IndexAlignment : Prop :=
  ∀ t img prog, decodeProgram t img = .ok prog → ∀ i, i < min img.length codeCapacity →
    ∃ w ins, img[i]? = some w ∧ prog[i]? = some ins ∧ decodeWord t w = .ok ins

/-- R143: the last record of a successful decode is JumpToBeginning for 65536 words or more, else EndExecution. -/
def Obligations.SentinelLaw : Prop :=
  ∀ t img prog, decodeProgram t img = .ok prog →
    prog[prog.length - 1]? = some (if codeCapacity ≤ img.length then .jumpToBeginning else .endExecution)

/-- R145: the decode of a word is never a sentinel, so a successful decode's only sentinel is its last record. -/
def Obligations.SentinelUniqueness : Prop :=
  (∀ t w, decodeWord t w ≠ .ok .jumpToBeginning ∧ decodeWord t w ≠ .ok .endExecution) ∧
  ∀ t img prog, decodeProgram t img = .ok prog → ∀ i, i + 1 < prog.length →
    prog[i]? ≠ some .jumpToBeginning ∧ prog[i]? ≠ some .endExecution

/-- R144: words at index CODE_CAPACITY and above change nothing: two images of CODE_CAPACITY words or more that agree
on the first CODE_CAPACITY words have the same result. -/
def Obligations.CapacityTruncation : Prop :=
  ∀ t img img', codeCapacity ≤ img.length → codeCapacity ≤ img'.length →
    img.take codeCapacity = img'.take codeCapacity → decodeProgram t img = decodeProgram t img'

/-- R166: a decode that aborts reports the lowest consumed word that faults, and that word's cause. -/
def Obligations.LowestIndexFaultIsReported : Prop :=
  ∀ t img c i, decodeProgram t img = .error c i ↔
    i < min img.length codeCapacity ∧ (∃ w, img[i]? = some w ∧ decodeWord t w = .error c) ∧
      ∀ j, j < i → ∃ w ins, img[j]? = some w ∧ decodeWord t w = .ok ins

/-- R156: the empty image decodes to EndExecution alone, and on the machine START and one step end it in DONE with
`OUT_LEN` 1. -/
def Obligations.EmptyImageDecodes : Prop :=
  (∀ t, decodeProgram t [] = .ok [.endExecution]) ∧
  ∀ s, s.status ≠ .busy → s.host = [] → ∃ u t, command (.start []) s = .next u ∧ step u = .next t ∧
    t.status = .done ∧ t.outLen.val = 1 ∧ Memory.read t.prog 0 = some .endExecution

/-- R153, R154, R187: after START(n, img) from any state that is not BUSY, with no further host input, the block runs
exactly as many steps as R154 says, BUSY until then, and ends in DONE with exactly DecodeProgram's program, or in
FAULT with exactly its cause and index and an empty store. -/
def Obligations.RunAgreesWithDecodeProgram : Prop :=
  ∀ s img, s.status ≠ .busy → s.host = [] → ∃ u, command (.start img) s = .next u ∧
    (∀ prog, decodeProgram s.parser img = .ok prog →
      (∀ k, k ≤ min img.length codeCapacity → ∃ v, runSteps k u = .next v ∧ v.status = .busy) ∧
      ∃ t, runSteps (min img.length codeCapacity + 1) u = .next t ∧ t.status = .done ∧
        t.outLen.val = prog.length ∧ ∀ j, j < prog.length → Memory.read t.prog j = prog[j]?) ∧
    (∀ c i, decodeProgram s.parser img = .error c i →
      (∀ k, k ≤ i → ∃ v, runSteps k u = .next v ∧ v.status = .busy) ∧
      ∃ t, runSteps (i + 1) u = .next t ∧ t.status = .fault ∧ t.faultCause = some c ∧
        t.faultIndex.val = i ∧ t.outLen = 0 ∧ ∀ j, Memory.read t.prog j = none)
end

