-- ==== Sys2Proof/Laws/Decode.lean ====
section
/-! SUPPORT. The codes of R63 to R65 read back, and what the parser parameter can answer. -/

namespace Sys2Proof

@[simp] theorem OperandTag.ofCode_code (t : OperandTag) : OperandTag.ofCode t.code = some t := by cases t <;> rfl

@[simp] theorem OpcodeTag.ofCode_code (t : OpcodeTag) : OpcodeTag.ofCode t.code = some t := by cases t <;> rfl

@[simp] theorem CondCode.ofCode_code (c : CondCode) : CondCode.ofCode c.code = c := by cases c <;> rfl

theorem CondCode.code_ofCode : ∀ c : BitVec 3, (CondCode.ofCode c).code = c := by decide

theorem OperandTag.code_of_ofCode : ∀ (c : BitVec 3) t, OperandTag.ofCode c = some t → t.code = c := by decide

/-- The all-zero word parses to the all-zero record (R61). -/
@[simp] theorem parseWord_zero (t : ParserTable) : parseWord t 0 = Ports.zero := by simp [parseWord]

/-- Everything the parser can answer: the fixed point, a record of the table, or the opaque parser's. -/
theorem parseWord_cases (t : ParserTable) (w : Word) :
    (w = 0 ∧ parseWord t w = Ports.zero) ∨ (∃ p, ParserTable.find t w = some p ∧ parseWord t w = p) ∨
      (ParserTable.find t w = none ∧ parseWord t w = Config.parseWord w) := by
  unfold parseWord
  split
  · next h => exact .inl ⟨h, rfl⟩
  · split
    · next p h => exact .inr (.inl ⟨p, h, rfl⟩)
    · next h => exact .inr (.inr ⟨h, rfl⟩)

end Sys2Proof
end

