-- ==== Sys2Proof/Laws/Memory.lean ====
section
/-! SUPPORT. The laws of the decoded-program store: a read after a write, and the canonical form. -/

namespace Sys2Proof.Machine

@[simp] theorem Memory.read_cleared (j : Nat) : Memory.read Memory.cleared j = none := rfl

/-- The slot just written reads as what was written. -/
@[simp] theorem Memory.read_write_same (m : Memory) (j : Nat) (ins : Instruction) :
    Memory.read (Memory.write m j ins) j = some ins := by
  induction m with
  | nil => simp [Memory.write, Memory.read]
  | cons c rest ih =>
    obtain ⟨k, old⟩ := c
    simp only [Memory.write]
    split
    · simp [Memory.read]
    · split
      · simp [Memory.read]
      · next _ hne => simp [Memory.read, ih, Ne.symm hne]

/-- A write leaves every other slot alone. -/
theorem Memory.read_write_other {m : Memory} {i j : Nat} {ins : Instruction} (h : i ≠ j) :
    Memory.read (Memory.write m j ins) i = Memory.read m i := by
  induction m with
  | nil => simp [Memory.write, Memory.read, Ne.symm h]
  | cons c rest ih =>
    obtain ⟨k, old⟩ := c
    simp only [Memory.write]
    split
    · simp [Memory.read, Ne.symm h]
    · split
      · next _ hk => subst hk; simp [Memory.read, Ne.symm h]
      · simp [Memory.read, ih]

/-- Every entry after a write is the one written or an old one. -/
theorem Memory.mem_write {m : Memory} {j : Nat} {ins : Instruction} {c : Nat × Instruction}
    (h : c ∈ Memory.write m j ins) : c = (j, ins) ∨ c ∈ m := by
  induction m with
  | nil => simpa [Memory.write] using h
  | cons d rest ih =>
    obtain ⟨k, old⟩ := d
    simp only [Memory.write] at h
    split at h
    · simpa using h
    · split at h
      · rcases List.mem_cons.1 h with rfl | h
        · exact .inl rfl
        · exact .inr (List.mem_cons_of_mem _ h)
      · rcases List.mem_cons.1 h with rfl | h
        · exact .inr List.mem_cons_self
        · exact (ih h).imp_right (List.mem_cons_of_mem _)

theorem Memory.wf_cleared : Memory.wf Memory.cleared := by simp [Memory.cleared, Memory.wf]

/-- A write into a slot of the store keeps the canonical form. -/
theorem Memory.wf_write {m : Memory} {j : Nat} {ins : Instruction} (hm : Memory.wf m) (hj : j ≤ codeCapacity) :
    Memory.wf (Memory.write m j ins) := by
  refine ⟨?_, fun c hc => ?_⟩
  · have hs := hm.1
    clear hm
    induction m with
    | nil => simp [Memory.write]
    | cons d rest ih =>
      obtain ⟨k, old⟩ := d
      rw [List.pairwise_cons] at hs
      simp only [Memory.write]
      split
      · next hlt =>
        refine List.pairwise_cons.2 ⟨fun c hc => ?_, List.pairwise_cons.2 hs⟩
        rcases List.mem_cons.1 hc with rfl | hc
        · exact hlt
        · exact Nat.lt_trans hlt (hs.1 c hc)
      · split
        · next _ hk => subst hk; exact List.pairwise_cons.2 hs
        · next hlt hne =>
          refine List.pairwise_cons.2 ⟨fun c hc => ?_, ih hs.2⟩
          rcases Memory.mem_write hc with rfl | hc
          · show k < j
            omega
          · exact hs.1 c hc
  · rcases Memory.mem_write hc with rfl | hc
    · exact hj
    · exact hm.2 c hc

end Sys2Proof.Machine
end

