-- ==== Sys2Proof/Laws/State.lean ====
section
/-! SUPPORT. One lemma per field per update of the state, so that no proof unfolds a record update, and the two
index helpers. -/

namespace Sys2Proof.Machine

theorem nextIndex_val {i : Fin (codeCapacity + 1)} (h : i.val < codeCapacity) : (nextIndex i).val = i.val + 1 := by
  simp [nextIndex, h]

theorem wordIndex_val {i : Fin (codeCapacity + 1)} (h : i.val < codeCapacity) : (wordIndex i).val = i.val := by
  simp [wordIndex, h]

/-! The fields after the word step (R150). -/

@[simp] theorem recorded_status (ins : Instruction) (s : State) :
    (recorded ins s).status = s.status := rfl
@[simp] theorem recorded_seqIdx (ins : Instruction) (s : State) :
    (recorded ins s).seqIdx = nextIndex s.seqIdx := rfl
@[simp] theorem recorded_nEff (ins : Instruction) (s : State) :
    (recorded ins s).nEff = s.nEff := rfl
@[simp] theorem recorded_wrap (ins : Instruction) (s : State) :
    (recorded ins s).wrap = s.wrap := rfl
@[simp] theorem recorded_outLen (ins : Instruction) (s : State) :
    (recorded ins s).outLen = s.outLen := rfl
@[simp] theorem recorded_faultCause (ins : Instruction) (s : State) :
    (recorded ins s).faultCause = s.faultCause := rfl
@[simp] theorem recorded_faultIndex (ins : Instruction) (s : State) :
    (recorded ins s).faultIndex = s.faultIndex := rfl
@[simp] theorem recorded_prog (ins : Instruction) (s : State) :
    (recorded ins s).prog = Memory.write s.prog s.seqIdx.val ins := rfl
@[simp] theorem recorded_img (ins : Instruction) (s : State) :
    (recorded ins s).img = s.img := rfl
@[simp] theorem recorded_parser (ins : Instruction) (s : State) :
    (recorded ins s).parser = s.parser := rfl
@[simp] theorem recorded_host (ins : Instruction) (s : State) :
    (recorded ins s).host = s.host := rfl
@[simp] theorem recorded_result (ins : Instruction) (s : State) :
    (recorded ins s).result = s.result := rfl

/-! The fields after the fault step (R152). -/

@[simp] theorem faulted_status (c : FaultCause) (s : State) :
    (faulted c s).status = .fault := rfl
@[simp] theorem faulted_seqIdx (c : FaultCause) (s : State) :
    (faulted c s).seqIdx = s.seqIdx := rfl
@[simp] theorem faulted_nEff (c : FaultCause) (s : State) :
    (faulted c s).nEff = s.nEff := rfl
@[simp] theorem faulted_wrap (c : FaultCause) (s : State) :
    (faulted c s).wrap = s.wrap := rfl
@[simp] theorem faulted_outLen (c : FaultCause) (s : State) :
    (faulted c s).outLen = 0 := rfl
@[simp] theorem faulted_faultCause (c : FaultCause) (s : State) :
    (faulted c s).faultCause = some c := rfl
@[simp] theorem faulted_faultIndex (c : FaultCause) (s : State) :
    (faulted c s).faultIndex = wordIndex s.seqIdx := rfl
@[simp] theorem faulted_prog (c : FaultCause) (s : State) :
    (faulted c s).prog = Memory.cleared := rfl
@[simp] theorem faulted_img (c : FaultCause) (s : State) :
    (faulted c s).img = s.img := rfl
@[simp] theorem faulted_parser (c : FaultCause) (s : State) :
    (faulted c s).parser = s.parser := rfl
@[simp] theorem faulted_host (c : FaultCause) (s : State) :
    (faulted c s).host = s.host := rfl
@[simp] theorem faulted_result (c : FaultCause) (s : State) :
    (faulted c s).result = s.result := rfl

/-! The fields after the sentinel step (R151). -/

@[simp] theorem finished_status (ins : Instruction) (s : State) :
    (finished ins s).status = .done := rfl
@[simp] theorem finished_seqIdx (ins : Instruction) (s : State) :
    (finished ins s).seqIdx = s.seqIdx := rfl
@[simp] theorem finished_nEff (ins : Instruction) (s : State) :
    (finished ins s).nEff = s.nEff := rfl
@[simp] theorem finished_wrap (ins : Instruction) (s : State) :
    (finished ins s).wrap = s.wrap := rfl
@[simp] theorem finished_outLen (ins : Instruction) (s : State) :
    (finished ins s).outLen = ⟨s.nEff.val + 1, by omega⟩ := rfl
@[simp] theorem finished_faultCause (ins : Instruction) (s : State) :
    (finished ins s).faultCause = s.faultCause := rfl
@[simp] theorem finished_faultIndex (ins : Instruction) (s : State) :
    (finished ins s).faultIndex = s.faultIndex := rfl
@[simp] theorem finished_prog (ins : Instruction) (s : State) :
    (finished ins s).prog = Memory.write s.prog s.nEff.val ins := rfl
@[simp] theorem finished_img (ins : Instruction) (s : State) :
    (finished ins s).img = s.img := rfl
@[simp] theorem finished_parser (ins : Instruction) (s : State) :
    (finished ins s).parser = s.parser := rfl
@[simp] theorem finished_host (ins : Instruction) (s : State) :
    (finished ins s).host = s.host := rfl
@[simp] theorem finished_result (ins : Instruction) (s : State) :
    (finished ins s).result = s.result := rfl

/-! The fields after START (R148). -/

@[simp] theorem started_status (img : List Word) (s : State) :
    (started img s).status = .busy := rfl
@[simp] theorem started_seqIdx (img : List Word) (s : State) :
    (started img s).seqIdx = 0 := rfl
@[simp] theorem started_nEff (img : List Word) (s : State) :
    (started img s).nEff = ⟨min img.length codeCapacity, by omega⟩ := rfl
@[simp] theorem started_wrap (img : List Word) (s : State) :
    (started img s).wrap = decide (codeCapacity ≤ img.length) := rfl
@[simp] theorem started_outLen (img : List Word) (s : State) :
    (started img s).outLen = 0 := rfl
@[simp] theorem started_faultCause (img : List Word) (s : State) :
    (started img s).faultCause = none := rfl
@[simp] theorem started_faultIndex (img : List Word) (s : State) :
    (started img s).faultIndex = 0 := rfl
@[simp] theorem started_prog (img : List Word) (s : State) :
    (started img s).prog = Memory.cleared := rfl
@[simp] theorem started_img (img : List Word) (s : State) :
    (started img s).img = some img := rfl
@[simp] theorem started_parser (img : List Word) (s : State) :
    (started img s).parser = s.parser := rfl
@[simp] theorem started_host (img : List Word) (s : State) :
    (started img s).host = s.host := rfl
@[simp] theorem started_result (img : List Word) (s : State) :
    (started img s).result = s.result := rfl

end Sys2Proof.Machine
end

