-- ==== Sys2Proof/Laws/Ops.lean ====
section
/-! SUPPORT. One lemma per shared operation that says everything it can do. -/

namespace Sys2Proof.Machine

theorem codeCapacity_eq : codeCapacity = 65536 := rfl

/-- The store of the reset state is canonical. -/
theorem reset_prog_wf : Memory.wf State.reset.prog := Memory.wf_cleared

@[simp] theorem afterHost_of_nil {s : State} (h : s.host = []) : afterHost s = s := by
  cases s; simp_all [afterHost]

@[simp] theorem renameStore_cleared (g : Register → Register) : renameStore g Memory.cleared = Memory.cleared := rfl

/-- Renaming the store after a write is writing the renamed record into the renamed store. -/
theorem renameStore_write (g : Register → Register) (m : Memory) (j : Nat) (ins : Instruction) :
    renameStore g (Memory.write m j ins) = Memory.write (renameStore g m) j (renameRecord g ins) := by
  induction m with
  | nil => rfl
  | cons c rest ih =>
    obtain ⟨k, old⟩ := c
    simp only [renameStore] at ih
    simp only [renameStore, Memory.write, List.map_cons]
    split
    · rfl
    · split
      · rfl
      · rw [List.map_cons, ih]

/-- Below `N_EFF` there is room for one more index. -/
theorem WordStepEnabled.lt_capacity {s : State} (h : WordStepEnabled s) : s.seqIdx.val < codeCapacity := by
  have := s.nEff.isLt
  omega

theorem KeepsRest.refl (s : State) : KeepsRest s s := ⟨rfl, rfl, rfl, rfl, rfl, rfl⟩

/-- An enabled word step stores the record, and nothing else happens. -/
theorem recorded_stores {s : State} (h : WordStepEnabled s) (ins : Instruction) :
    StoresRecord s (recorded ins s) ins :=
  ⟨Memory.read_write_same .., fun _ hj => Memory.read_write_other hj, nextIndex_val h.lt_capacity,
    rfl, rfl, rfl, rfl, KeepsRest.refl s⟩

/-- An enabled fault step takes the fault, and nothing else happens. -/
theorem faulted_takes {s : State} (h : WordStepEnabled s) (c : FaultCause) : TakesFault s (faulted c s) c :=
  ⟨Memory.read_cleared, rfl, wordIndex_val h.lt_capacity, rfl, rfl, rfl, KeepsRest.refl s⟩

/-- The sentinel step stores the sentinel, and nothing else happens. -/
theorem finished_stores (s : State) (ins : Instruction) : StoresSentinel s (finished ins s) ins :=
  ⟨Memory.read_write_same .., fun _ hj => Memory.read_write_other hj, rfl, rfl, rfl, rfl, rfl, KeepsRest.refl s⟩

/-- A committed result answers a next state exactly where the word step is enabled: the record stored, or the fault
taken. -/
theorem commit_next {r : WordResult} {s t : State} (h : commit r s = .next t) :
    WordStepEnabled s ∧
      ((∃ ins, r = .ok ins ∧ t = recorded ins s) ∨ (∃ c, r = .error c ∧ t = faulted c s)) := by
  cases r with
  | ok ins =>
    simp only [commit, storeRecord] at h
    split at h
    · next he => cases h; exact ⟨he, .inl ⟨ins, rfl, rfl⟩⟩
    · cases h
  | error c =>
    simp only [commit, takeFault] at h
    split at h
    · next he => cases h; exact ⟨he, .inr ⟨c, rfl, rfl⟩⟩
    · cases h

theorem storeSentinel_next {w : Bool} {ins : Instruction} {s t : State} (h : storeSentinel w ins s = .next t) :
    SentinelStepEnabled w s ∧ t = finished ins s := by
  simp only [storeSentinel] at h
  split at h
  · next he => cases h; exact ⟨he, rfl⟩
  · cases h

/-- An instruction a word encodes is run by committing what Dispatch builds from its parts. -/
theorem exec_ofTag (t : OpcodeTag) (f : Fields) (s : State) :
    exec (Instr.ofTag t f) s = commit (dispatch t f) s := by
  cases t <;> rfl

/-- Everything an instruction can do that answers a next state: the word step, the fault step, or the sentinel step
that `WRAP` selects. -/
theorem exec_next_cases {i : Instr} {s t : State} (h : exec i s = .next t) :
    (WordStepEnabled s ∧ ((∃ ins, t = recorded ins s) ∨ ∃ c, t = faulted c s)) ∨
      (SentinelStepEnabled true s ∧ i = .jumpToBeginning ∧ t = finished .jumpToBeginning s) ∨
      (SentinelStepEnabled false s ∧ i = .endExecution ∧ t = finished .endExecution s) := by
  have word : ∀ {r}, commit r s = .next t →
      WordStepEnabled s ∧ ((∃ ins, t = recorded ins s) ∨ ∃ c, t = faulted c s) := fun h =>
    have ⟨he, hc⟩ := commit_next h
    ⟨he, hc.imp (fun ⟨ins, _, ht⟩ => ⟨ins, ht⟩) (fun ⟨c, _, ht⟩ => ⟨c, ht⟩)⟩
  cases i with
  | jumpToBeginning =>
    obtain ⟨he, ht⟩ := storeSentinel_next h
    exact .inr (.inl ⟨he, rfl, ht⟩)
  | endExecution =>
    obtain ⟨he, ht⟩ := storeSentinel_next h
    exact .inr (.inr ⟨he, rfl, ht⟩)
  | nop f => exact .inl (word h)
  | add f => exact .inl (word h)
  | sub f => exact .inl (word h)
  | mul f => exact .inl (word h)
  | div f => exact .inl (word h)
  | xor f => exact .inl (word h)
  | and f => exact .inl (word h)
  | or f => exact .inl (word h)
  | shl f => exact .inl (word h)
  | shr f => exact .inl (word h)
  | rol f => exact .inl (word h)
  | ror f => exact .inl (word h)
  | jump f => exact .inl (word h)
  | context f => exact .inl (word h)
  | ptrAdd f => exact .inl (word h)
  | ptrSub f => exact .inl (word h)
  | ptrPack f => exact .inl (word h)
  | ptrShrink f => exact .inl (word h)
  | nearCall f => exact .inl (word h)
  | log f => exact .inl (word h)
  | farCall f => exact .inl (word h)
  | ret f => exact .inl (word h)
  | uma f => exact .inl (word h)
  | invalid f => exact .inl (word h)

/-- What a construction with resolved operands can answer: the destination's fault, or the family's own result. -/
theorem withOperands_cases (f : Fields) (build : AnySource → AnyDestination → Predicate → WordResult) :
    (∃ c, destinationOf f = .error c ∧ withOperands f build = .error c) ∨
      (∃ d, destinationOf f = .ok d ∧ withOperands f build = build (sourceOf f) d (mapPredicate f.cond)) := by
  unfold withOperands
  cases h : destinationOf f with
  | ok d => exact .inr ⟨d, rfl, rfl⟩
  | error c => exact .inl ⟨c, rfl, rfl⟩

end Sys2Proof.Machine
end

