-- ==== Sys2Proof/Laws/PerInstr.lean ====
section
/-! SUPPORT. Statements about every instruction as syntax, one lemma per constructor. -/

namespace Sys2Proof.Laws.TagAndFields

/-- An instruction that a word encodes is rebuilt from its opcode tag and its fields. -/
def Statement (i : Instr) : Prop := ∀ t f, i.parts = some (t, f) → Instr.ofTag t f = i

theorem nop (f : Fields) : Statement (.nop f) := by rintro t g ⟨⟩; rfl

theorem add (f : Fields) : Statement (.add f) := by rintro t g ⟨⟩; rfl

theorem sub (f : Fields) : Statement (.sub f) := by rintro t g ⟨⟩; rfl

theorem mul (f : Fields) : Statement (.mul f) := by rintro t g ⟨⟩; rfl

theorem div (f : Fields) : Statement (.div f) := by rintro t g ⟨⟩; rfl

theorem xor (f : Fields) : Statement (.xor f) := by rintro t g ⟨⟩; rfl

theorem and (f : Fields) : Statement (.and f) := by rintro t g ⟨⟩; rfl

theorem or (f : Fields) : Statement (.or f) := by rintro t g ⟨⟩; rfl

theorem shl (f : Fields) : Statement (.shl f) := by rintro t g ⟨⟩; rfl

theorem shr (f : Fields) : Statement (.shr f) := by rintro t g ⟨⟩; rfl

theorem rol (f : Fields) : Statement (.rol f) := by rintro t g ⟨⟩; rfl

theorem ror (f : Fields) : Statement (.ror f) := by rintro t g ⟨⟩; rfl

theorem jump (f : Fields) : Statement (.jump f) := by rintro t g ⟨⟩; rfl

theorem context (f : Fields) : Statement (.context f) := by rintro t g ⟨⟩; rfl

theorem ptrAdd (f : Fields) : Statement (.ptrAdd f) := by rintro t g ⟨⟩; rfl

theorem ptrSub (f : Fields) : Statement (.ptrSub f) := by rintro t g ⟨⟩; rfl

theorem ptrPack (f : Fields) : Statement (.ptrPack f) := by rintro t g ⟨⟩; rfl

theorem ptrShrink (f : Fields) : Statement (.ptrShrink f) := by rintro t g ⟨⟩; rfl

theorem nearCall (f : Fields) : Statement (.nearCall f) := by rintro t g ⟨⟩; rfl

theorem log (f : Fields) : Statement (.log f) := by rintro t g ⟨⟩; rfl

theorem farCall (f : Fields) : Statement (.farCall f) := by rintro t g ⟨⟩; rfl

theorem ret (f : Fields) : Statement (.ret f) := by rintro t g ⟨⟩; rfl

theorem uma (f : Fields) : Statement (.uma f) := by rintro t g ⟨⟩; rfl

theorem invalid (f : Fields) : Statement (.invalid f) := by rintro t g ⟨⟩; rfl

theorem jumpToBeginning : Statement .jumpToBeginning := by rintro t g ⟨⟩

theorem endExecution : Statement .endExecution := by rintro t g ⟨⟩

end Sys2Proof.Laws.TagAndFields
end

