-- ==== Sys2Proof/Laws/Step.lean ====
section
/-! SUPPORT. What a step can do: the fetch, the sequencer's step, and the host's transactions. -/

namespace Sys2Proof.Machine

/-- Where a word step is enabled the fetch is that of the word at `SEQ_IDX` (R149). -/
theorem fetch_of_enabled {s : State} (he : WordStepEnabled s) : fetch s = fetchWord s := by
  unfold fetch
  rw [he.1]
  exact if_pos he.2

/-- The fetch of a word that decodes (R150, R162). -/
theorem fetch_word_ok {s : State} {w : Word} {i : Instr} (he : WordStepEnabled s)
    (hw : imageRead s s.seqIdx.val = some w) (hd : decodePorts (parseWord s.parser w) = .ok i) :
    fetch s = .instr i := by
  simp only [fetch_of_enabled he, fetchWord, hw, hd]

/-- The fetch of a word whose record the decoder refuses (R73, R162). -/
theorem fetch_word_error {s : State} {w : Word} {r : DecodeReject} (he : WordStepEnabled s)
    (hw : imageRead s s.seqIdx.val = some w) (hd : decodePorts (parseWord s.parser w) = .error r) :
    fetch s = .rejected r := by
  simp only [fetch_of_enabled he, fetchWord, hw, hd]

/-- The fetch of the sentinel (R151). -/
theorem fetch_sentinel {s : State} (hb : s.status = .busy) (hi : s.seqIdx.val = s.nEff.val) :
    fetch s = .instr (selectedSentinel s.wrap) := by
  simp [fetch, hb, hi]

/-- Outside BUSY nothing is fetched (R149). -/
theorem fetch_waiting {s : State} (h : s.status ≠ .busy) : fetch s = .waiting := by
  cases hs : s.status <;> simp_all [fetch]

/-- On the word at `SEQ_IDX` the sequencer commits what DecodeWord gives (R150, R152, R73). -/
theorem sequencerStep_word {s : State} {w : Word} (he : WordStepEnabled s)
    (hw : imageRead s s.seqIdx.val = some w) : sequencerStep s = commit (decodeWord s.parser w) s := by
  cases hp : decodeParts (parseWord s.parser w) with
  | ok t f =>
    have hd : decodePorts (parseWord s.parser w) = .ok (Instr.ofTag t f) := by simp only [decodePorts, hp]
    have hr : decodeWord s.parser w = dispatch t f := by simp only [decodeWord, decodeFields, hp]
    rw [hr, ← exec_ofTag t f s]
    simp only [sequencerStep, fetch_word_ok he hw hd]
  | error r =>
    have hd : decodePorts (parseWord s.parser w) = .error r := by simp only [decodePorts, hp]
    have hr : decodeWord s.parser w = .error (rejectCause r) := by simp only [decodeWord, decodeFields, hp]
    simp only [hr, commit, sequencerStep, fetch_word_error he hw hd]

/-- At `N_EFF` the sequencer runs the sentinel step (R151). -/
theorem sequencerStep_sentinel {s : State} (hb : s.status = .busy) (hi : s.seqIdx.val = s.nEff.val) :
    sequencerStep s = .next (finished (if s.wrap then .jumpToBeginning else .endExecution) s) := by
  unfold sequencerStep
  rw [fetch_sentinel hb hi]
  cases hw : s.wrap <;>
    simp [selectedSentinel, exec, execJumpToBeginning, execEndExecution, storeSentinel, SentinelStepEnabled, hb, hi,
      hw]

/-- Outside BUSY the sequencer keeps the state (R149, R178). -/
theorem sequencerStep_waiting {s : State} (h : s.status ≠ .busy) : sequencerStep s = .next s := by
  unfold sequencerStep
  rw [fetch_waiting h]

/-- Everything a sequencer step can do that answers a next state. -/
theorem sequencerStep_next {s t : State} (h : sequencerStep s = .next t) :
    (s.status ≠ .busy ∧ t = s) ∨
      (WordStepEnabled s ∧ ∃ w, imageRead s s.seqIdx.val = some w ∧
        ((∃ ins, decodeWord s.parser w = .ok ins ∧ t = recorded ins s) ∨
          ∃ c, decodeWord s.parser w = .error c ∧ t = faulted c s)) ∨
      (s.status = .busy ∧ s.seqIdx.val = s.nEff.val ∧
        t = finished (if s.wrap then .jumpToBeginning else .endExecution) s) := by
  by_cases hb : s.status = .busy
  · by_cases hlt : s.seqIdx.val < s.nEff.val
    · have he : WordStepEnabled s := ⟨hb, hlt⟩
      cases hw : imageRead s s.seqIdx.val with
      | none => simp [sequencerStep, fetch, hb, hlt, fetchWord, hw] at h
      | some w =>
        rw [sequencerStep_word he hw] at h
        exact .inr (.inl ⟨he, w, rfl, (commit_next h).2⟩)
    · by_cases hi : s.seqIdx.val = s.nEff.val
      · rw [sequencerStep_sentinel hb hi] at h
        cases h
        exact .inr (.inr ⟨hb, hi, rfl⟩)
      · simp [sequencerStep, fetch, hb, hlt, hi] at h
  · rw [sequencerStep_waiting hb] at h
    cases h
    exact .inl ⟨hb, rfl⟩

/-- Everything a host transaction can do that answers a next state (R186). -/
theorem command_next {c : Command} {s t : State} (h : command c s = .next t) :
    (∃ img, c = .start img ∧ s.status ≠ .busy ∧ t = started img s) ∨
      (c = .reset ∧ t = { State.reset with parser := s.parser, host := s.host }) ∨
      (∃ k v, c = .csrRead k ∧ csrRead s k = some v ∧ t = { s with result := some (.csr v) }) ∨
      (∃ j ins, c = .progRead j ∧ progRead s j = some ins ∧ t = { s with result := some (.prog ins) }) := by
  cases c with
  | start img =>
    simp only [command, start] at h
    split at h
    · cases h
    · next hb => cases h; exact .inl ⟨img, rfl, hb, rfl⟩
  | reset => cases h; exact .inr (.inl ⟨rfl, rfl⟩)
  | csrRead k =>
    simp only [command, csrReadCommand] at h
    split at h
    · next v hv => cases h; exact .inr (.inr (.inl ⟨k, v, rfl, hv, rfl⟩))
    · cases h
  | progRead j =>
    simp only [command, progReadCommand] at h
    split at h
    · next ins hi => cases h; exact .inr (.inr (.inr ⟨j, ins, rfl, hi, rfl⟩))
    · cases h

/-- Everything a step can do: use up the host's entry, then a transaction or the sequencer's step. -/
theorem step_next {s t : State} (h : step s = .next t) :
    (s.host = [] ∧ sequencerStep s = .next t) ∨
      (∃ rest, s.host = none :: rest ∧ sequencerStep { s with host := rest } = .next t) ∨
      (∃ c rest, s.host = some c :: rest ∧ command c { s with host := rest } = .next t) := by
  unfold step at h
  split at h
  · next hh => exact .inl ⟨hh, h⟩
  · next rest hh => exact .inr (.inl ⟨rest, hh, h⟩)
  · next c rest hh => exact .inr (.inr ⟨c, rest, hh, h⟩)

end Sys2Proof.Machine
end

