-- ==== Sys2Proof/Tests/Slice0.lean ====
section
/-! SUPPORT. Small tests, each about one step or one word, with results from spec/95_test_vectors.md and the
examples of the rules; the ill-formed terms the well-formedness checks refuse; and one witness for the hypotheses of
each obligation that has some. -/

namespace Sys2Proof.Tests

open Sys2Proof.Machine

/-- Fields that are all zero, as a record of spec/95 with nothing written in it. -/
def zeroFields : Fields :=
  { src0Tag := .reg, dst0Tag := .reg, imm0 := 0, imm1 := 0, rSrc0 := 0, rSrc1 := 0, rDst0 := 0, rDst1 := 0,
    cond := .c0, swap := false, setFlags := false }

/-- The block in BUSY on a one-word image whose word parses to `p`. -/
def busyOn (p : Ports) : State := loadedWith 1 p State.reset

/-- What one step makes of the record `p` as word 0: the record stored in slot 0, or the fault taken there. -/
def outcomeOf (p : Ports) : Option WordResult :=
  match step (busyOn p) with
  | .next t =>
    match t.status, t.faultCause with
    | .fault, some c => if t.faultIndex = 0 ∧ t.prog = [] then some (.error c) else none
    | .busy, none => if t.seqIdx = 1 then (Memory.read t.prog 0).map .ok else none
    | _, _ => none
  | .fault _ => none
  | .refused _ => none

/-- The outcome is a next state of which `p` holds. -/
def nextIs (o : Host.Outcome State Fault Refusal) (p : State → Bool) : Bool :=
  match o with
  | .next t => p t
  | .fault _ => false
  | .refused _ => false

/-! Each instruction's encoding and its step. -/

/-- The record of vector N3, written out from R63 to R65. -/
def portsNop : Ports :=
  { Ports.zero with opc := 0b00000, dst0Tag := 0b011, imm1 := 3, rDst0 := 2 }

theorem test_decode_nop : decodePorts portsNop = .ok (.nop
    { zeroFields with src0Tag := .reg, dst0Tag := .advSp, imm1 := 3, rDst0 := 2 }) := rfl

/-- vector N3. -/
theorem test_step_nop : outcomeOf portsNop = some (.ok (.nop ⟨0, 0⟩ ⟨3, 2⟩ .always)) := rfl

/-- The record of vector T1 (Scenario A), written out from R63 to R65. -/
def portsAdd : Ports :=
  { Ports.zero with opc := 0b00001, rSrc0 := 3, rSrc1 := 5, rDst0 := 7, setFlags := true }

theorem test_decode_add : decodePorts portsAdd = .ok (.add
    { zeroFields with src0Tag := .reg, dst0Tag := .reg, rSrc0 := 3, rSrc1 := 5, rDst0 := 7, setFlags := true }) := rfl

/-- vector T1 (Scenario A). -/
theorem test_step_add : outcomeOf portsAdd = some (.ok (.binary .add (.register1 3) 5 (.register1 7) none .always false true)) := rfl

/-- The record of vector B2, written out from R63 to R65. -/
def portsSub : Ports :=
  { Ports.zero with opc := 0b00010, src0Tag := 0b001, imm0 := 16, rSrc1 := 2, rDst0 := 2, swap := true, setFlags := true }

theorem test_decode_sub : decodePorts portsSub = .ok (.sub
    { zeroFields with src0Tag := .imm16, dst0Tag := .reg, imm0 := 16, rSrc1 := 2, rDst0 := 2, swap := true, setFlags := true }) := rfl

/-- vector B2. -/
theorem test_step_sub : outcomeOf portsSub = some (.ok (.binary .sub (.immediate1 0x0010) 2 (.register1 2) none .always true true)) := rfl

/-- The record of vector B3, written out from R63 to R65. -/
def portsMul : Ports :=
  { Ports.zero with opc := 0b00011, rSrc0 := 1, rSrc1 := 2, rDst0 := 3, rDst1 := 4 }

theorem test_decode_mul : decodePorts portsMul = .ok (.mul
    { zeroFields with src0Tag := .reg, dst0Tag := .reg, rSrc0 := 1, rSrc1 := 2, rDst0 := 3, rDst1 := 4 }) := rfl

/-- vector B3. -/
theorem test_step_mul : outcomeOf portsMul = some (.ok (.binary .mul (.register1 1) 2 (.register1 3) (some 4) .always false false)) := rfl

/-- The record of vector B5, written out from R63 to R65. -/
def portsDiv : Ports :=
  { Ports.zero with opc := 0b00100, src0Tag := 0b010, imm0 := 8, rSrc0 := 1, rSrc1 := 2, rDst0 := 3, cond := 0b011 }

theorem test_decode_div : decodePorts portsDiv = .ok (.div
    { zeroFields with src0Tag := .absStack, dst0Tag := .reg, imm0 := 8, rSrc0 := 1, rSrc1 := 2, rDst0 := 3, cond := .c3 }) := rfl

/-- vector B5. -/
theorem test_step_div : outcomeOf portsDiv = some (.ok (.binary .div (.absoluteStack ⟨8, 1⟩) 2 (.register1 3) (some 0) .ifEQ false false)) := rfl

/-- The record of vector B6, written out from R63 to R65. -/
def portsXor : Ports :=
  { Ports.zero with opc := 0b00101, rSrc0 := 1, rSrc1 := 1, rDst0 := 1 }

theorem test_decode_xor : decodePorts portsXor = .ok (.xor
    { zeroFields with src0Tag := .reg, dst0Tag := .reg, rSrc0 := 1, rSrc1 := 1, rDst0 := 1 }) := rfl

/-- vector B6. -/
theorem test_step_xor : outcomeOf portsXor = some (.ok (.binary .xor (.register1 1) 1 (.register1 1) none .always false false)) := rfl

/-- The record of vector B7, written out from R63 to R65. -/
def portsAnd : Ports :=
  { Ports.zero with opc := 0b00110, src0Tag := 0b101, dst0Tag := 0b100, imm0 := 4, imm1 := 2, rSrc1 := 6 }

theorem test_decode_and : decodePorts portsAnd = .ok (.and
    { zeroFields with src0Tag := .codePage, dst0Tag := .relStack, imm0 := 4, imm1 := 2, rSrc1 := 6 }) := rfl

/-- vector B7. -/
theorem test_step_and : outcomeOf portsAnd = some (.ok (.binary .and (.codePage ⟨4, 0⟩) 6 (.relativeStack ⟨2, 0⟩) none .always false false)) := rfl

/-- The record of vector B8, written out from R63 to R65. -/
def portsOr : Ports :=
  { Ports.zero with opc := 0b00111, src0Tag := 0b001, imm0 := 65535, rSrc1 := 3, rDst0 := 3, cond := 0b110, setFlags := true }

theorem test_decode_or : decodePorts portsOr = .ok (.or
    { zeroFields with src0Tag := .imm16, dst0Tag := .reg, imm0 := 65535, rSrc1 := 3, rDst0 := 3, cond := .c6, setFlags := true }) := rfl

/-- vector B8. -/
theorem test_step_or : outcomeOf portsOr = some (.ok (.binary .or (.immediate1 0xFFFF) 3 (.register1 3) none .ifNotEQ false true)) := rfl

/-- The record of vector B9, written out from R63 to R65. -/
def portsShl : Ports :=
  { Ports.zero with opc := 0b01000, rSrc0 := 2, rSrc1 := 3, rDst0 := 2 }

theorem test_decode_shl : decodePorts portsShl = .ok (.shl
    { zeroFields with src0Tag := .reg, dst0Tag := .reg, rSrc0 := 2, rSrc1 := 3, rDst0 := 2 }) := rfl

/-- vector B9. -/
theorem test_step_shl : outcomeOf portsShl = some (.ok (.binary .shl (.register1 2) 3 (.register1 2) none .always false false)) := rfl

/-- The record of vector B10, written out from R63 to R65. -/
def portsShr : Ports :=
  { Ports.zero with opc := 0b01001, dst0Tag := 0b011, imm1 := 1, rSrc0 := 2, rSrc1 := 3 }

theorem test_decode_shr : decodePorts portsShr = .ok (.shr
    { zeroFields with src0Tag := .reg, dst0Tag := .advSp, imm1 := 1, rSrc0 := 2, rSrc1 := 3 }) := rfl

/-- vector B10. -/
theorem test_step_shr : outcomeOf portsShr = some (.ok (.binary .shr (.register1 2) 3 (.advanceStackPointer ⟨1, 0⟩) none .always false false)) := rfl

/-- The record of vector B11, written out from R63 to R65. -/
def portsRol : Ports :=
  { Ports.zero with opc := 0b01010, rSrc0 := 4, rSrc1 := 5, rDst0 := 6, cond := 0b001 }

theorem test_decode_rol : decodePorts portsRol = .ok (.rol
    { zeroFields with src0Tag := .reg, dst0Tag := .reg, rSrc0 := 4, rSrc1 := 5, rDst0 := 6, cond := .c1 }) := rfl

/-- vector B11. -/
theorem test_step_rol : outcomeOf portsRol = some (.ok (.binary .rol (.register1 4) 5 (.register1 6) none .ifGT false false)) := rfl

/-- The record of vector B12, written out from R63 to R65. -/
def portsRor : Ports :=
  { Ports.zero with opc := 0b01011, src0Tag := 0b011, dst0Tag := 0b011, imm0 := 3, imm1 := 3, rSrc1 := 5 }

theorem test_decode_ror : decodePorts portsRor = .ok (.ror
    { zeroFields with src0Tag := .advSp, dst0Tag := .advSp, imm0 := 3, imm1 := 3, rSrc1 := 5 }) := rfl

/-- vector B12. -/
theorem test_step_ror : outcomeOf portsRor = some (.ok (.binary .ror (.advanceStackPointer ⟨3, 0⟩) 5 (.advanceStackPointer ⟨3, 0⟩) none .always false false)) := rfl

/-- The record of vector J5, written out from R63 to R65. -/
def portsJump : Ports :=
  { Ports.zero with opc := 0b01100, src0Tag := 0b001, dst0Tag := 0b011, imm0 := 4, imm1 := 9, rSrc1 := 7, rDst0 := 3, rDst1 := 7, swap := true, setFlags := true }

theorem test_decode_jump : decodePorts portsJump = .ok (.jump
    { zeroFields with src0Tag := .imm16, dst0Tag := .advSp, imm0 := 4, imm1 := 9, rSrc1 := 7, rDst0 := 3, rDst1 := 7, swap := true, setFlags := true }) := rfl

/-- vector J5. -/
theorem test_step_jump : outcomeOf portsJump = some (.ok (.jump (.immediate1 4) .always)) := rfl

/-- The record of vector U1, written out from R63 to R65. -/
def portsContext : Ports :=
  { Ports.zero with opc := 0b01101 }

theorem test_decode_context : decodePorts portsContext = .ok (.context
    { zeroFields with src0Tag := .reg, dst0Tag := .reg }) := rfl

/-- vector U1. -/
theorem test_step_context : outcomeOf portsContext = some (.error .unsupportedOpcode) := rfl

/-- The record of vector U12, written out from R63 to R65. -/
def portsPtrAdd : Ports :=
  { Ports.zero with opc := 0b01110, rSrc0 := 1, rSrc1 := 2, rDst0 := 3 }

theorem test_decode_ptrAdd : decodePorts portsPtrAdd = .ok (.ptrAdd
    { zeroFields with src0Tag := .reg, dst0Tag := .reg, rSrc0 := 1, rSrc1 := 2, rDst0 := 3 }) := rfl

/-- vector U12. -/
theorem test_step_ptrAdd : outcomeOf portsPtrAdd = some (.error .unsupportedOpcode) := rfl

/-- The record of R129's example, written out from R63 to R65. -/
def portsPtrSub : Ports :=
  { Ports.zero with opc := 0b01111, dst0Tag := 0b001 }

theorem test_decode_ptrSub : decodePorts portsPtrSub = .ok (.ptrSub
    { zeroFields with src0Tag := .reg, dst0Tag := .imm16 }) := rfl

/-- R129's example. -/
theorem test_step_ptrSub : outcomeOf portsPtrSub = some (.error .encodingViolation) := rfl

/-- The record of R130's example, written out from R63 to R65. -/
def portsPtrPack : Ports :=
  { Ports.zero with opc := 0b10000 }

theorem test_decode_ptrPack : decodePorts portsPtrPack = .ok (.ptrPack
    { zeroFields with src0Tag := .reg, dst0Tag := .reg }) := rfl

/-- R130's example. -/
theorem test_step_ptrPack : outcomeOf portsPtrPack = some (.error .unsupportedOpcode) := rfl

/-- The record of R131's example, written out from R63 to R65. -/
def portsPtrShrink : Ports :=
  { Ports.zero with opc := 0b10001, dst0Tag := 0b101 }

theorem test_decode_ptrShrink : decodePorts portsPtrShrink = .ok (.ptrShrink
    { zeroFields with src0Tag := .reg, dst0Tag := .codePage }) := rfl

/-- R131's example. -/
theorem test_step_ptrShrink : outcomeOf portsPtrShrink = some (.error .encodingViolation) := rfl

/-- The record of R132's example, written out from R63 to R65. -/
def portsNearCall : Ports :=
  { Ports.zero with opc := 0b10010, src0Tag := 0b001, imm0 := 2 }

theorem test_decode_nearCall : decodePorts portsNearCall = .ok (.nearCall
    { zeroFields with src0Tag := .imm16, dst0Tag := .reg, imm0 := 2 }) := rfl

/-- R132's example. -/
theorem test_step_nearCall : outcomeOf portsNearCall = some (.error .unsupportedOpcode) := rfl

/-- The record of vector U13, written out from R63 to R65. -/
def portsLog : Ports :=
  { Ports.zero with opc := 0b10011, dst0Tag := 0b001 }

theorem test_decode_log : decodePorts portsLog = .ok (.log
    { zeroFields with src0Tag := .reg, dst0Tag := .imm16 }) := rfl

/-- vector U13. -/
theorem test_step_log : outcomeOf portsLog = some (.error .encodingViolation) := rfl

/-- The record of vector U15, written out from R63 to R65. -/
def portsFarCall : Ports :=
  { Ports.zero with opc := 0b10100, dst0Tag := 0b011, imm1 := 1 }

theorem test_decode_farCall : decodePorts portsFarCall = .ok (.farCall
    { zeroFields with src0Tag := .reg, dst0Tag := .advSp, imm1 := 1 }) := rfl

/-- vector U15. -/
theorem test_step_farCall : outcomeOf portsFarCall = some (.error .unsupportedOpcode) := rfl

/-- The record of vector U14, written out from R63 to R65. -/
def portsRet : Ports :=
  { Ports.zero with opc := 0b10101, dst0Tag := 0b101 }

theorem test_decode_ret : decodePorts portsRet = .ok (.ret
    { zeroFields with src0Tag := .reg, dst0Tag := .codePage }) := rfl

/-- vector U14. -/
theorem test_step_ret : outcomeOf portsRet = some (.error .encodingViolation) := rfl

/-- The record of R136's example, written out from R63 to R65. -/
def portsUma : Ports :=
  { Ports.zero with opc := 0b10110, src0Tag := 0b010, imm0 := 1 }

theorem test_decode_uma : decodePorts portsUma = .ok (.uma
    { zeroFields with src0Tag := .absStack, dst0Tag := .reg, imm0 := 1 }) := rfl

/-- R136's example. -/
theorem test_step_uma : outcomeOf portsUma = some (.error .unsupportedOpcode) := rfl

/-- The record of R137's example, written out from R63 to R65. -/
def portsInvalid : Ports :=
  { Ports.zero with opc := 0b10111 }

theorem test_decode_invalid : decodePorts portsInvalid = .ok (.invalid
    { zeroFields with src0Tag := .reg, dst0Tag := .reg }) := rfl

/-- R137's example. -/
theorem test_step_invalid : outcomeOf portsInvalid = some (.error .unsupportedOpcode) := rfl


/-! What the decoder refuses (R73), and the table words. -/

/-- Vector U16: `opc` code 24 is unused. -/
theorem test_decode_unused_opcode : decodePorts { Ports.zero with opc := 0b11000 } =
    .error (.unusedOpcode 24 .reg) := by decide

/-- Vectors U16 and U17: an unused opcode faults, after the destination. -/
theorem test_step_unused_opcode :
    outcomeOf { Ports.zero with opc := 0b11000 } = some (.error .unsupportedOpcode) ∧
    outcomeOf { Ports.zero with opc := 0b11111, dst0Tag := 0b001 } = some (.error .encodingViolation) := by decide

/-- spec/95 sections 2.2 and 2.3: tag codes 6 and 7. -/
theorem test_step_unused_tags :
    outcomeOf { Ports.zero with src0Tag := 0b110 } = some (.error .encodingViolation) ∧
    outcomeOf { Ports.zero with dst0Tag := 0b111 } = some (.error .encodingViolation) := by decide

/-- The last used opcode code and the first unused one (R63). -/
theorem test_table_word_edges : decodeTableWord 8 23 = some (.invalid zeroFields) ∧ decodeTableWord 8 24 = none := by
  decide

/-- The table word of SHL runs as the first instruction after reset. -/
theorem test_table_word_runs :
    nextIs (step (State.reset.withFetchWord 8 8)) fun t =>
      Memory.read t.prog 0 = some (.binary .shl (.register1 0) 0 (.register1 0) none .always false false) := by
  decide

/-- Vector N1: the raw word 0, whatever the parser table. -/
theorem test_zero_word : decodeWord [(0, portsAdd)] 0 = .ok (.nop ⟨0, 0⟩ ⟨0, 0⟩ .always) := by decide

/-! The sentinels (vectors S1 and S5: the last step of each). -/

/-- The block in BUSY with all of a full image's words decoded. -/
def fullImage : State := { started [] State.reset with seqIdx := 65536, nEff := 65536, wrap := true }

/-- Vector S1: the empty image's only step. -/
theorem test_step_endExecution :
    nextIs (step (started [] State.reset)) fun t =>
      t.status = .done ∧ t.outLen = 1 ∧ Memory.read t.prog 0 = some .endExecution := by decide

/-- Vector S5: the sentinel step of a full image. -/
theorem test_step_jumpToBeginning :
    nextIs (step fullImage) fun t =>
      t.status = .done ∧ t.outLen = 65537 ∧ Memory.read t.prog 65536 = some .jumpToBeginning := by decide

/-! The host's ports (R78, R79, R186). -/

/-- Vector P4's end state: the empty image decoded. -/
def doneEmpty : State := finished .endExecution (started [] State.reset)

/-- A one-word image whose word faulted (vector U13). -/
def faultedLog : State := faulted .encodingViolation (busyOn portsLog)

theorem test_start_refused_while_busy : command (.start []) (busyOn Ports.zero) = .refused .startWhileBusy := rfl

/-- R29: the codes of `STATUS` and `FAULT_CAUSE` as read by the host. -/
theorem test_csr_codes :
    csrRead doneEmpty 0 = some 2 ∧ csrRead faultedLog 0 = some 3 ∧ csrRead faultedLog 5 = some 1 ∧
    csrRead doneEmpty 4 = some 1 ∧ csrRead doneEmpty 7 = none := by decide

/-- R47: the record is readable in DONE below `OUT_LEN` only. -/
theorem test_prog_read :
    progRead doneEmpty 0 = some .endExecution ∧ progRead doneEmpty 1 = none ∧ progRead (busyOn Ports.zero) 0 = none :=
  by decide

/-- P6: START after a fault begins afresh. -/
theorem test_start_after_fault :
    nextIs (command (.start [0]) faultedLog) fun t =>
      t.status = .busy ∧ t.faultCause = none ∧ t.nEff = 1 ∧ t.seqIdx = 0 := by decide

/-! The store. -/

theorem test_store_write_is_canonical :
    Memory.write [(0, .endExecution), (5, .endExecution)] 3 .jumpToBeginning =
      [(0, .endExecution), (3, .jumpToBeginning), (5, .endExecution)] := by decide

theorem test_store_wf_refuses_disorder : ¬ Memory.wf [(5, .endExecution), (3, .endExecution)] := by decide

/-! WellFormed: the ill-formed terms, refused. -/

theorem test_wellFormed_refuses_jumpToBeginning : ¬ Instr.jumpToBeginning.WellFormed := nofun

theorem test_wellFormed_refuses_endExecution : ¬ Instr.endExecution.WellFormed := nofun

theorem test_wellFormed_accepts_zero_fields : (Instr.add zeroFields).WellFormed := rfl

/-! One witness for the hypotheses of each obligation that has some: `witness_<Obligation>`. -/

theorem started_meets_inv (img : List Word) (s : State) : SequencerInv (started img s) :=
  ⟨Memory.wf_cleared, Nat.zero_le _, img, ⟨rfl, rfl, rfl⟩, rfl, rfl, rfl, fun _ h => absurd h (Nat.not_lt_zero _),
    fun _ _ => rfl⟩

theorem doneEmpty_meets_inv : SequencerInv doneEmpty := by
  refine ⟨by decide, by decide, [], ⟨rfl, rfl, rfl⟩, rfl, rfl, rfl, rfl, fun _ h => absurd h (Nat.not_lt_zero _), by
    decide, fun j hj => ?_⟩
  have h0 : j ≠ 0 := Nat.ne_of_gt hj
  exact Memory.read_write_other h0

theorem faultedLog_meets_inv : SequencerInv faultedLog :=
  ⟨by decide, by decide, [1], .encodingViolation, 1, ⟨rfl, by decide, by decide⟩, by decide, rfl, rfl, rfl, rfl, by
    decide, fun _ h => absurd h (Nat.not_lt_zero _), fun _ => rfl⟩

theorem witness_StartSetsUpDecode : State.reset.status ≠ .busy ∧ (busyOn Ports.zero).status = .busy := by decide

theorem witness_StatusReadsReturnRegisters :
    7 ≤ 7 ∧ 6 < 7 ∧ State.reset.status ≠ .busy ∧ (busyOn Ports.zero).status = .busy := by decide

theorem witness_ProgReadsOnlyInDone :
    (doneEmpty.status = .done ∧ 0 < doneEmpty.outLen.val ∧ Memory.read doneEmpty.prog 0 = some .endExecution ∧
      SequencerInv doneEmpty) ∧ State.reset.status ≠ .done ∧ doneEmpty.outLen.val ≤ 1 :=
  ⟨⟨rfl, by decide, by decide, doneEmpty_meets_inv⟩, by decide, by decide⟩

theorem witness_DueTransactionTakesTheStep :
    { State.reset with host := [some .reset] }.host = some Command.reset :: [] := rfl

theorem witness_DecodeInvertsEncode :
    (Instr.add zeroFields).WellFormed := test_wellFormed_accepts_zero_fields

theorem witness_EncodeInvertsDecode : decodePorts Ports.zero = .ok (.nop zeroFields) := by decide

theorem witness_SpecRecordsDecode :
    (0b10101, Instr.ret) ∈ opcodeRows ∧ (0b101, OperandTag.codePage) ∈ tagRows ∧
    (0b111, CondCode.c7) ∈ condRows := by
  simp [opcodeRows, tagRows, condRows]

theorem witness_UnusedCodesFault :
    let p : Ports := { Ports.zero with src0Tag := 6 }
    let q : Ports := { Ports.zero with dst0Tag := 7 }
    let r : Ports := { Ports.zero with opc := 24, src0Tag := 5, dst0Tag := 5 }
    6 ≤ p.src0Tag.toNat ∧ 6 ≤ q.dst0Tag.toNat ∧ 24 ≤ r.opc.toNat ∧ r.src0Tag.toNat < 6 ∧ r.dst0Tag.toNat < 6 := by
  decide

theorem witness_DestinationFaultIsUnconditional :
    portsPtrSub.dst0Tag.toNat = 1 ∧ portsPtrShrink.dst0Tag.toNat = 5 := by decide

theorem witness_BinaryFaultSet :
    (1 ≤ portsAdd.opc.toNat ∧ portsAdd.opc.toNat ≤ 11 ∧ decodeFields portsAdd ≠ .error .encodingViolation) ∧
    1 ≤ portsRor.opc.toNat ∧ portsRor.opc.toNat ≤ 11 ∧
    decodeFields { portsRor with dst0Tag := 5 } = .error .encodingViolation := by decide

/-- Every width `REG_BITS` may have tells index 0 from index 1 (R7). -/
theorem register_zero_ne_one : (0 : Register) ≠ 1 :=
  fun h => by simpa [Config.regBits] using congrArg (BitVec.getLsbD · 0) h

/-- The hypotheses of R70's rows on two records that differ only in ports their family does not read. -/
theorem witness_FamiliesReadOnlyTheirFields :
    let binary (p q : Ports) : Prop :=
      p.opc = q.opc ∧ p.src0Tag = q.src0Tag ∧ p.dst0Tag = q.dst0Tag ∧ 1 ≤ p.opc.toNat ∧ p.opc.toNat ≤ 11 ∧
      p.imm0 = q.imm0 ∧ p.rSrc0 = q.rSrc0 ∧ p.rSrc1 = q.rSrc1 ∧ p.imm1 = q.imm1 ∧ p.rDst0 = q.rDst0 ∧
      p.cond = q.cond ∧ p.swap = q.swap ∧ p.setFlags = q.setFlags ∧
      (p.opc.toNat = 3 ∨ p.opc.toNat = 4 → p.rDst1 = q.rDst1) ∧ p ≠ q
    let jump (p q : Ports) : Prop :=
      p.opc = q.opc ∧ p.src0Tag = q.src0Tag ∧ p.dst0Tag = q.dst0Tag ∧ p.opc.toNat = 12 ∧ p.imm0 = q.imm0 ∧
      p.rSrc0 = q.rSrc0 ∧ p.cond = q.cond ∧ p ≠ q
    let nop (p q : Ports) : Prop :=
      p.opc = q.opc ∧ p.src0Tag = q.src0Tag ∧ p.dst0Tag = q.dst0Tag ∧ p.opc.toNat = 0 ∧ p.imm0 = q.imm0 ∧
      p.rSrc0 = q.rSrc0 ∧ p.imm1 = q.imm1 ∧ p.rDst0 = q.rDst0 ∧ p.cond = q.cond ∧ p ≠ q
    let other (p q : Ports) : Prop :=
      p.opc = q.opc ∧ p.src0Tag = q.src0Tag ∧ p.dst0Tag = q.dst0Tag ∧ 13 ≤ p.opc.toNat ∧ p ≠ q
    binary portsAdd { portsAdd with rDst1 := 1 } ∧ binary portsRor { portsRor with rDst1 := 1 } ∧
    jump portsJump { portsJump with swap := false, rSrc1 := 0 } ∧
    nop portsNop { portsNop with setFlags := true, rDst1 := 4 } ∧
    other portsContext { portsContext with imm0 := 1, cond := 7 } := by
  and_intros <;>
    first
    | rfl
    | exact fun h => register_zero_ne_one (congrArg Ports.rDst1 h)
    | exact fun h => absurd (congrArg Ports.swap h) (by decide)
    | exact fun h => absurd (congrArg Ports.setFlags h) (by decide)
    | exact fun h => absurd (congrArg Ports.imm0 h) (by decide)
    | decide

/-- Fields with a destination tag that faults. -/
def badFields : Fields := { zeroFields with dst0Tag := .codePage }

theorem witness_SingleDestinationBinaryRecords :
    WordStepEnabled (busyOn portsAdd) ∧ destinationOf zeroFields = .ok (.register1 0) ∧
    badFields.dst0Tag = .codePage := by decide

theorem witness_MulDivRecords :
    WordStepEnabled (busyOn portsMul) ∧ destinationOf { zeroFields with rDst0 := 3 } = .ok (.register1 3) ∧
    badFields.dst0Tag = .codePage := ⟨by decide, rfl, rfl⟩

theorem witness_JumpRecords :
    WordStepEnabled (busyOn portsJump) ∧
    destinationOf { zeroFields with dst0Tag := .advSp, imm1 := 9, rDst0 := 3 } = .ok (.advanceStackPointer ⟨9, 3⟩) ∧
    badFields.dst0Tag = .codePage := ⟨by decide, rfl, rfl⟩

theorem witness_JumpIgnoresOtherFields :
    let f : Fields := { zeroFields with rSrc1 := 7, swap := true }
    let g : Fields := { zeroFields with dst0Tag := .relStack, imm1 := 1 }
    destinationOf f = .ok (.register1 0) ∧ destinationOf g = .ok (.relativeStack ⟨1, 0⟩) ∧
    f.src0Tag = g.src0Tag ∧ f.imm0 = g.imm0 ∧ f.rSrc0 = g.rSrc0 ∧ f.cond = g.cond := by decide

theorem witness_NopRecords :
    WordStepEnabled (busyOn portsNop) ∧
    destinationOf { zeroFields with dst0Tag := .advSp, imm1 := 3, rDst0 := 2 } = .ok (.advanceStackPointer ⟨3, 2⟩) ∧
    badFields.dst0Tag = .codePage := ⟨by decide, rfl, rfl⟩

theorem witness_UnimplementedFamiliesFault :
    Instr.context ∈ unimplemented ∧ Instr.invalid ∈ unimplemented ∧ WordStepEnabled (busyOn portsContext) :=
  ⟨by simp [unimplemented], by simp [unimplemented], by decide⟩

theorem witness_SentinelsComplete :
    ((started [] State.reset).status = .busy ∧
      (started [] State.reset).seqIdx.val = (started [] State.reset).nEff.val ∧
      (started [] State.reset).wrap = false) ∧
    fullImage.status = .busy ∧ fullImage.seqIdx.val = fullImage.nEff.val ∧ fullImage.wrap = true := by decide

theorem witness_InstructionsStopOnlyWhenNotEnabled :
    (Instr.add zeroFields).parts = some (.add, zeroFields) ∧ ¬ WordStepEnabled State.reset ∧
    ¬ SentinelStepEnabled true State.reset ∧ ¬ SentinelStepEnabled false State.reset := by decide

theorem witness_ExecFrame :
    (∃ t, exec (.add zeroFields) (busyOn portsAdd) = .next t ∧ t.status = .busy) ∧
    (∃ t, exec (.context zeroFields) (busyOn portsContext) = .next t ∧ t.status = .fault) ∧
    ∃ t, exec .jumpToBeginning fullImage = .next t ∧ t.status = .done :=
  ⟨⟨_, rfl, rfl⟩, ⟨_, rfl, rfl⟩, ⟨_, rfl, rfl⟩⟩

theorem witness_StepRunsDecodedWord :
    let s := { busyOn portsAdd with host := [none] }
    NoTransactionDue s ∧ WordStepEnabled s ∧ imageRead s s.seqIdx.val = some 1 ∧
    decodePorts (parseWord s.parser 1) =
      .ok (.add { zeroFields with rSrc0 := 3, rSrc1 := 5, rDst0 := 7, setFlags := true }) :=
  ⟨nofun, by decide, rfl, rfl⟩

theorem witness_StepRunsSelectedSentinel :
    NoTransactionDue fullImage ∧ fullImage.status = .busy ∧ fullImage.seqIdx.val = fullImage.nEff.val :=
  ⟨nofun, rfl, rfl⟩

theorem witness_WordStepStoresRecord :
    let s := busyOn portsJump
    NoTransactionDue s ∧ s.status = .busy ∧ s.seqIdx.val < s.nEff.val ∧ imageRead s s.seqIdx.val = some 1 ∧
    decodeWord s.parser 1 = .ok (.jump (.immediate1 4) .always) := ⟨nofun, by decide⟩

theorem witness_FaultStepDiscardsProgram :
    let s := busyOn portsRet
    NoTransactionDue s ∧ s.status = .busy ∧ s.seqIdx.val < s.nEff.val ∧ imageRead s s.seqIdx.val = some 1 ∧
    decodeWord s.parser 1 = .error .encodingViolation := ⟨nofun, by decide⟩

theorem witness_SentinelStepEndsDecode :
    NoTransactionDue fullImage ∧ fullImage.status = .busy ∧ fullImage.seqIdx.val = fullImage.nEff.val :=
  ⟨nofun, rfl, rfl⟩

theorem witness_WaitingPhasesKeepState : NoTransactionDue State.reset ∧ State.reset.status ≠ .busy :=
  ⟨nofun, by decide⟩

theorem witness_TableWordsRunNext :
    decodeTableWord 8 0 = some (.nop zeroFields) ∧ decodeTableWord 8 23 = some (.invalid zeroFields) := by decide

theorem witness_StepKeepsSequencerInvariant :
    SequencerInv (started [0] State.reset) ∧ ∃ t, step (started [0] State.reset) = .next t :=
  ⟨started_meets_inv .., ⟨_, rfl⟩⟩

theorem witness_InvariantExcludesStuckStates : SequencerInv (started [0] State.reset) := started_meets_inv ..

theorem witness_StepKeepsStoreCanonical :
    Memory.wf (busyOn portsAdd).prog ∧ ∃ t, step (busyOn portsAdd) = .next t := ⟨by decide, ⟨_, rfl⟩⟩

/-- The renaming that sends every index to 0, a word whose registers it changes, and a parser that gives the word
renamed ports: one case that stores a record, and one that faults. -/
theorem witness_RegisterRenamingCommutes :
    let g : Register → Register := fun _ => 0
    let s := busyOn portsMul
    let u := busyOn portsPtrAdd
    g 0 = 0 ∧ g 1 ≠ 1 ∧
    (NoTransactionDue s ∧ WordStepEnabled s ∧ imageRead s s.seqIdx.val = some 1 ∧
      parseWord [(1, renamePorts g portsMul)] 1 = renamePorts g (parseWord s.parser 1) ∧
      ∃ ins, decodeFields portsMul = .ok ins) ∧
    NoTransactionDue u ∧ WordStepEnabled u ∧ imageRead u u.seqIdx.val = some 1 ∧
    parseWord [(1, renamePorts g portsPtrAdd)] 1 = renamePorts g (parseWord u.parser 1) ∧
    decodeFields portsPtrAdd = .error .unsupportedOpcode :=
  ⟨rfl, register_zero_ne_one, ⟨nofun, by decide, rfl, rfl, _, rfl⟩, nofun, by decide, rfl, rfl, rfl⟩

/-- A state whose store is empty, and the step that stores a record with four registers in it. -/
theorem witness_StepKeepsRegistersCopied :
    RegistersCopied (busyOn portsMul) ∧ ∃ t, step (busyOn portsMul) = .next t ∧ t.prog ≠ [] :=
  ⟨fun _ _ h => absurd h List.not_mem_nil, _, rfl, nofun⟩

theorem witness_DoneProgramHasSuccessors :
    SequencerInv doneEmpty ∧ doneEmpty.status = .done ∧ 0 < doneEmpty.outLen.val :=
  ⟨doneEmpty_meets_inv, rfl, by decide⟩

theorem witness_FaultLeavesNoPartialOutput : SequencerInv faultedLog ∧ faultedLog.status = .fault :=
  ⟨faultedLog_meets_inv, rfl⟩

theorem witness_ResultLastsUntilRestart :
    (NoRestartDue doneEmpty ∧ step doneEmpty = .next doneEmpty ∧ doneEmpty.status = .done) ∧
    NoRestartDue faultedLog ∧ step faultedLog = .next faultedLog ∧ faultedLog.status = .fault :=
  ⟨⟨nofun, rfl, rfl⟩, nofun, rfl, rfl⟩

theorem witness_OnlyStartOrResetLeavesFault :
    let s := { faultedLog with host := [some .reset] }
    let u := { faultedLog with host := [some (.start [])] }
    (s.status = .fault ∧ ∃ t, step s = .next t ∧ t.status ≠ .fault) ∧
    u.status = .fault ∧ ∃ t, step u = .next t ∧ t.status ≠ .fault :=
  ⟨⟨rfl, _, rfl, by decide⟩, rfl, _, rfl, by decide⟩

theorem witness_OnlyHostMisuseIsRefused :
    step { busyOn Ports.zero with host := [some (.start [])] } = .refused .startWhileBusy ∧
    step { State.reset with host := [some (.csrRead 7)] } = .refused .csrReadNoRegister ∧
    step { State.reset with host := [some (.progRead 0)] } = .refused .progReadNotReadable := ⟨rfl, rfl, rfl⟩

theorem witness_ParserIsAParameter : ∃ t, step (busyOn portsAdd) = .next t := ⟨_, rfl⟩

theorem witness_ImageIsASnapshot : NoRestartDue (busyOn portsAdd) ∧ ∃ t, step (busyOn portsAdd) = .next t :=
  ⟨nofun, ⟨_, rfl⟩⟩

/-- The program of the one-word image of vector S2, which the laws of DecodeProgram speak of. -/
theorem decodeProgram_zero_word :
    decodeProgram [] [0] = .ok [.nop ⟨0, 0⟩ ⟨0, 0⟩ .always, .endExecution] := by decide

theorem witness_LengthLaw : ∃ prog, decodeProgram [] [0] = .ok prog := ⟨_, decodeProgram_zero_word⟩

theorem witness_IndexAlignment :
    (∃ prog, decodeProgram [] [0] = .ok prog) ∧ 0 < min ([0] : List Word).length codeCapacity :=
  ⟨⟨_, decodeProgram_zero_word⟩, by decide⟩

theorem witness_SentinelLaw : ∃ prog, decodeProgram [] [0] = .ok prog := ⟨_, decodeProgram_zero_word⟩

theorem witness_SentinelUniqueness : ∃ prog, decodeProgram [] [0] = .ok prog ∧ 0 + 1 < prog.length :=
  ⟨_, decodeProgram_zero_word, by decide⟩

/-- Vector S5 against S7: a full image and a longer one. -/
theorem witness_CapacityTruncation :
    let a : List Word := List.replicate codeCapacity 0
    let b : List Word := List.replicate (codeCapacity + 4464) 0
    codeCapacity ≤ a.length ∧ codeCapacity ≤ b.length ∧ a.take codeCapacity = b.take codeCapacity := by
  simp only [List.length_replicate, List.take_replicate, Nat.min_self, Nat.min_eq_left (Nat.le_add_right _ _),
    Nat.le_refl, Nat.le_add_right, and_self]

/-- Vector S9's shape: the fault of word 1 is reported. -/
theorem decodeProgram_faults_at_one :
    decodeProgram [(1, portsRet)] [0, 1, 1] = .error .encodingViolation 1 := by decide

theorem witness_LowestIndexFaultIsReported :
    ∃ c i, decodeProgram [(1, portsRet)] [0, 1, 1] = .error c i := ⟨_, _, decodeProgram_faults_at_one⟩

theorem witness_EmptyImageDecodes : State.reset.status ≠ .busy ∧ State.reset.host = [] := by decide

theorem witness_RunAgreesWithDecodeProgram :
    let s := { State.reset with parser := [(1, portsRet)] }
    s.status ≠ .busy ∧ s.host = [] ∧ (∃ prog, decodeProgram s.parser [0] = .ok prog) ∧
    decodeProgram s.parser [0, 1, 1] = .error .encodingViolation 1 :=
  ⟨by decide, rfl, ⟨[.nop ⟨0, 0⟩ ⟨0, 0⟩ .always, .endExecution], by decide⟩, decodeProgram_faults_at_one⟩

end Sys2Proof.Tests
end

/-! PROOFS. What a step answers and every way it can be taken, said once for all statements about steps. -/

namespace Sys2Proof.Machine

/-- The state after the sequencer has taken in a word's result: the record stored (R150), or the fault taken
(R152). -/
def committed : WordResult → State → State
  | .ok ins, s => recorded ins s
  | .error c, s => faulted c s

theorem commit_of_enabled {s : State} (he : WordStepEnabled s) (r : WordResult) :
    commit r s = .next (committed r s) := by
  cases r with
  | ok ins => exact if_pos he
  | error c => exact if_pos he

/-- With no transaction due the sequencer steps, after the host's entry is used up (log 5). -/
theorem step_of_noTransactionDue {s : State} (h : NoTransactionDue s) : step s = sequencerStep (afterHost s) := by
  unfold step
  split
  · next hh => rw [afterHost_of_nil hh]
  · next hh => rw [afterHost, hh, List.tail_cons]
  · next c rest hh => exact absurd hh (h c rest)

/-- On the word at `SEQ_IDX`, with no transaction due, the step takes in what DecodeWord gives (R150, R152). -/
theorem step_word {s : State} {w : Word} (hn : NoTransactionDue s) (he : WordStepEnabled s)
    (hw : imageRead s s.seqIdx.val = some w) :
    step s = .next (committed (decodeWord s.parser w) (afterHost s)) :=
  calc step s = sequencerStep (afterHost s) := step_of_noTransactionDue hn
    _ = commit (decodeWord s.parser w) (afterHost s) := sequencerStep_word (s := afterHost s) he hw
    _ = .next (committed (decodeWord s.parser w) (afterHost s)) := commit_of_enabled (s := afterHost s) he _

/-- The state RESET answers (R181, log 15). -/
def resetKeeping (s : State) : State := { State.reset with parser := s.parser, host := s.host }

/-- Every way a step from `s` can answer a next state, one constructor per rule. -/
inductive StepTo (s : State) : State → Prop where
  | wait (hs : s.status ≠ .busy) : StepTo s (afterHost s)
  | word {w : Word} {ins : Instruction} (he : WordStepEnabled s) (hw : imageRead s s.seqIdx.val = some w)
      (hd : decodeWord s.parser w = .ok ins) : StepTo s (recorded ins (afterHost s))
  | fault {w : Word} {c : FaultCause} (he : WordStepEnabled s) (hw : imageRead s s.seqIdx.val = some w)
      (hd : decodeWord s.parser w = .error c) : StepTo s (faulted c (afterHost s))
  | sentinel (hb : s.status = .busy) (hi : s.seqIdx.val = s.nEff.val) :
      StepTo s (finished (if s.wrap then .jumpToBeginning else .endExecution) (afterHost s))
  | start {img : List Word} {rest : List (Option Command)} (hh : s.host = some (.start img) :: rest)
      (hs : s.status ≠ .busy) : StepTo s (started img (afterHost s))
  | reset {rest : List (Option Command)} (hh : s.host = some .reset :: rest) :
      StepTo s (resetKeeping (afterHost s))
  | csrRead {k : Nat} {v : BitVec 32} {rest : List (Option Command)} (hh : s.host = some (.csrRead k) :: rest)
      (hv : Machine.csrRead s k = some v) : StepTo s { afterHost s with result := some (.csr v) }
  | progRead {j : Nat} {ins : Instruction} {rest : List (Option Command)}
      (hh : s.host = some (.progRead j) :: rest) (hv : Machine.progRead s j = some ins) :
      StepTo s { afterHost s with result := some (.prog ins) }

theorem stepTo_of_sequencerStep {s t : State} (h : sequencerStep (afterHost s) = .next t) : StepTo s t := by
  obtain ⟨hs, rfl⟩ | ⟨he, w, hw, ⟨ins, hd, rfl⟩ | ⟨c, hd, rfl⟩⟩ | ⟨hb, hi, rfl⟩ := sequencerStep_next h
  · exact .wait hs
  · exact .word he hw hd
  · exact .fault he hw hd
  · exact .sentinel hb hi

theorem stepTo_of_command {s t : State} {c : Command} {rest : List (Option Command)} (hh : s.host = some c :: rest)
    (h : command c (afterHost s) = .next t) : StepTo s t := by
  obtain ⟨img, rfl, hs, rfl⟩ | ⟨rfl, rfl⟩ | ⟨k, v, rfl, hv, rfl⟩ | ⟨j, ins, rfl, hv, rfl⟩ := command_next h
  · exact .start hh hs
  · exact .reset hh
  · exact .csrRead hh hv
  · exact .progRead hh hv

/-- Every next state a step answers is reached by one of the rules of `StepTo`. -/
theorem stepTo_of_step {s t : State} (h : step s = .next t) : StepTo s t := by
  by_cases hn : NoTransactionDue s
  · rw [step_of_noTransactionDue hn] at h
    exact stepTo_of_sequencerStep h
  · simp only [NoTransactionDue, not_forall, not_not] at hn
    obtain ⟨c, rest, hh⟩ := hn
    have hc : step s = command c (afterHost s) := by simp only [step, afterHost, hh, List.tail_cons]
    exact stepTo_of_command hh (hc ▸ h)

end Sys2Proof.Machine

/-! PROOFS. Reset, the sequencer's invariant and the image snapshot: O1, O34, O35, O45. -/

namespace Sys2Proof.Machine

theorem resetKeeping_atResetValues (s : State) : AtResetValues (resetKeeping s) :=
  ⟨rfl, rfl, rfl, rfl, rfl, rfl, rfl, Memory.read_cleared, rfl⟩

theorem reset_atResetValues : AtResetValues State.reset := resetKeeping_atResetValues State.reset

/-- Settles O1: RESET is taken in every phase, and every field of the state it answers is that of `State.reset` but
the parser and the host's inputs, which R42 does not name. -/
theorem resetRestoresResetValues : Obligations.ResetRestoresResetValues :=
  ⟨reset_atResetValues, fun s => ⟨resetKeeping s, rfl, resetKeeping_atResetValues s⟩⟩

theorem OnImage.imageRead_eq {ws : List Word} {s : State} (h : OnImage ws s) (i : Nat) : imageRead s i = ws[i]? := by
  obtain ⟨himg, -, -⟩ := h
  simp only [imageRead, himg]

/-- The sentinel that WRAP selects is the one the image's length asks for (R33, R143). -/
theorem OnImage.sentinel_eq {ws : List Word} {s : State} (h : OnImage ws s) :
    (if s.wrap then .jumpToBeginning else .endExecution) = sentinelFor ws.length := by
  obtain ⟨-, -, hwrap⟩ := h
  simp only [hwrap, decide_eq_true_eq, sentinelFor]

/-- A write at or above slot `k` keeps the records decoded below `k`. -/
theorem DecodedBelow.write {ws : List Word} {k j : Nat} {s : State} (h : DecodedBelow ws k s) (hk : k ≤ j)
    (ins : Instruction) : DecodedBelow ws k { s with prog := Memory.write s.prog j ins } := by
  intro i hi
  obtain ⟨w, old, hw, hd, hr⟩ := h i hi
  exact ⟨w, old, hw, hd, (Memory.read_write_other (by omega)).trans hr⟩

/-- Storing the decode of word `k` in slot `k` extends the decoded part by one. -/
theorem DecodedBelow.write_succ {ws : List Word} {k : Nat} {s : State} {w : Word} {ins : Instruction}
    (h : DecodedBelow ws k s) (hw : ws[k]? = some w) (hd : decodeWord s.parser w = .ok ins) :
    DecodedBelow ws (k + 1) { s with prog := Memory.write s.prog k ins } := by
  intro i hi
  obtain hlt | rfl : i < k ∨ i = k := by omega
  · exact h.write le_rfl ins i hlt
  · exact ⟨w, ins, hw, hd, Memory.read_write_same ..⟩

theorem SequencerInv.prog_wf {s : State} (h : SequencerInv s) : Memory.wf s.prog := h.1

theorem SequencerInv.seqIdx_le {s : State} (h : SequencerInv s) : s.seqIdx.val ≤ s.nEff.val := h.2.1

/-- The invariant's clause for BUSY. -/
theorem SequencerInv.busy {s : State} (h : SequencerInv s) (hb : s.status = .busy) :
    ∃ ws, OnImage ws s ∧ s.outLen = 0 ∧ s.faultCause = none ∧ s.faultIndex = 0 ∧
      DecodedBelow ws s.seqIdx.val s ∧ ∀ j, s.seqIdx.val ≤ j → Memory.read s.prog j = none := by
  obtain ⟨-, -, hphase⟩ := h
  simpa only [hb] using hphase

/-- The host's inputs are no part of the invariant. -/
theorem SequencerInv.afterHost {s : State} (h : SequencerInv s) : SequencerInv (afterHost s) := h

/-- The result port is no part of the invariant. -/
theorem SequencerInv.setResult {s : State} (h : SequencerInv s) (v : Option PortValue) :
    SequencerInv { s with result := v } := h

theorem resetKeeping_sequencerInv (s : State) : SequencerInv (resetKeeping s) :=
  ⟨Memory.wf_cleared, le_rfl, resetKeeping_atResetValues s⟩

theorem started_sequencerInv (img : List Word) (s : State) : SequencerInv (started img s) :=
  ⟨Memory.wf_cleared, Nat.zero_le _, img, ⟨rfl, rfl, rfl⟩, rfl, rfl, rfl, fun _ h => absurd h (Nat.not_lt_zero _),
    fun j _ => Memory.read_cleared j⟩

/-- The word step extends the decoded part by the word at `SEQ_IDX` (R150). -/
theorem SequencerInv.recorded {s : State} {w : Word} {ins : Instruction} (h : SequencerInv s)
    (he : WordStepEnabled s) (hw : imageRead s s.seqIdx.val = some w) (hd : decodeWord s.parser w = .ok ins) :
    SequencerInv (recorded ins s) := by
  obtain ⟨ws, himg, hout, hcause, hindex, hdec, hnone⟩ := h.busy he.1
  have hnext : (Machine.recorded ins s).seqIdx.val = s.seqIdx.val + 1 := nextIndex_val he.lt_capacity
  rw [himg.imageRead_eq] at hw
  refine ⟨Memory.wf_write h.prog_wf he.lt_capacity.le, hnext ▸ he.2, ?_⟩
  simp only [recorded_status, he.1]
  refine ⟨ws, himg, hout, hcause, hindex, hnext ▸ hdec.write_succ hw hd, fun j hj => ?_⟩
  rw [hnext] at hj
  exact (Memory.read_write_other (by omega)).trans (hnone j (by omega))

/-- The fault step leaves the fault of the first word that does not decode, over an empty store (R152, R166). -/
theorem SequencerInv.faulted {s : State} {w : Word} {c : FaultCause} (h : SequencerInv s)
    (he : WordStepEnabled s) (hw : imageRead s s.seqIdx.val = some w) (hd : decodeWord s.parser w = .error c) :
    SequencerInv (faulted c s) := by
  obtain ⟨ws, himg, -, -, -, hdec, -⟩ := h.busy he.1
  rw [himg.imageRead_eq] at hw
  refine ⟨Memory.wf_cleared, h.seqIdx_le, ws, c, w, himg, he.2, rfl, rfl, wordIndex_val he.lt_capacity, hw, hd,
    fun i hi => ?_, Memory.read_cleared⟩
  obtain ⟨v, ins, hv, hok, -⟩ := hdec i hi
  exact ⟨v, ins, hv, hok⟩

/-- The sentinel step closes a fully decoded program (R151). -/
theorem SequencerInv.finished {s : State} (h : SequencerInv s) (hb : s.status = .busy)
    (hi : s.seqIdx.val = s.nEff.val) :
    SequencerInv (finished (if s.wrap then .jumpToBeginning else .endExecution) s) := by
  obtain ⟨ws, himg, -, hcause, hindex, hdec, hnone⟩ := h.busy hb
  rw [himg.sentinel_eq]
  rw [hi] at hdec hnone
  refine ⟨Memory.wf_write h.prog_wf (Nat.le_of_lt_succ s.nEff.isLt), h.seqIdx_le, ws, himg, Fin.ext hi, rfl, hcause,
    hindex, hdec.write le_rfl _, Memory.read_write_same .., fun j hj => ?_⟩
  exact (Memory.read_write_other (Nat.ne_of_gt hj)).trans (hnone j hj.le)

/-- Settles O34: the reset values are the invariant's clause for IDLE. -/
theorem resetMeetsSequencerInvariant : Obligations.ResetMeetsSequencerInvariant :=
  resetKeeping_sequencerInv State.reset

/-- Settles O35, by the rule that made the step. -/
theorem stepKeepsSequencerInvariant : Obligations.StepKeepsSequencerInvariant := by
  intro s t hinv hstep
  have hinv' := hinv.afterHost
  cases stepTo_of_step hstep with
  | wait => exact hinv'
  | word he hw hd => exact hinv'.recorded he hw hd
  | fault he hw hd => exact hinv'.faulted he hw hd
  | sentinel hb hi => exact hinv'.finished hb hi
  | start => exact started_sequencerInv ..
  | reset => exact resetKeeping_sequencerInv ..
  | csrRead => exact hinv'.setResult _
  | progRead => exact hinv'.setResult _

/-- Settles O45: of all the rules only START and RESET write the snapshot, `N_EFF` or WRAP, and neither is due. -/
theorem imageIsASnapshot : Obligations.ImageIsASnapshot := by
  intro s t hno hstep
  cases stepTo_of_step hstep with
  | wait => exact ⟨rfl, rfl, rfl⟩
  | word => exact ⟨rfl, rfl, rfl⟩
  | fault => exact ⟨rfl, rfl, rfl⟩
  | sentinel => exact ⟨rfl, rfl, rfl⟩
  | start hh => exact absurd rfl ((hno _ _ hh).2 _)
  | reset hh => exact absurd rfl (hno _ _ hh).1
  | csrRead => exact ⟨rfl, rfl, rfl⟩
  | progRead => exact ⟨rfl, rfl, rfl⟩

end Sys2Proof.Machine

/-! PROOFS. Register indices are copied and never computed with: O38, O54. -/

namespace Sys2Proof.Machine

/-- The four families of constructions that Dispatch selects from (R76, R71). -/
theorem dispatch_family (t : OpcodeTag) :
    dispatch t = nopRecord ∨ (∃ op, dispatch t = binaryRecord op) ∨ dispatch t = jumpRecord ∨
      dispatch t = unsupportedRecord := by
  cases t with
  | nop => exact .inl rfl
  | jump => exact .inr (.inr (.inl rfl))
  | add | sub | mul | div | xor | and | or | shl | shr | rol | ror => exact .inr (.inl ⟨_, rfl⟩)
  | context | ptrAdd | ptrSub | ptrPack | ptrShrink | nearCall | log | farCall | ret | uma | invalid =>
    exact .inr (.inr (.inr rfl))

section Renaming

variable (g : Register → Register)

/-- Fields with the four register indices renamed: what a renaming of the ports does behind `decodeParts`. -/
def renameFields (f : Fields) : Fields :=
  { f with rSrc0 := g f.rSrc0, rSrc1 := g f.rSrc1, rDst0 := g f.rDst0, rDst1 := g f.rDst1 }

/-- A resolved destination with its register index renamed; a fault has none. -/
def renameDestResult : DestResult → DestResult
  | .ok d => .ok (renameDestination g d)
  | .error c => .error c

/-- What the ports name with its register indices renamed; a refusal has none. -/
def renameParts : PartsResult → PartsResult
  | .ok t f => .ok t (renameFields g f)
  | .error r => .error r

theorem decodeParts_renamePorts (p : Ports) : decodeParts (renamePorts g p) = renameParts g (decodeParts p) := by
  simp only [decodeParts, renamePorts]
  cases OperandTag.ofCode p.dst0Tag with
  | none => rfl
  | some dst =>
    cases OperandTag.ofCode p.src0Tag with
    | none => rfl
    | some src => cases OpcodeTag.ofCode p.opc <;> rfl

theorem sourceOf_renameFields (f : Fields) : sourceOf (renameFields g f) = renameSource g (sourceOf f) := by
  simp only [sourceOf, renameFields]
  cases f.src0Tag <;> rfl

theorem destinationOf_renameFields (f : Fields) :
    destinationOf (renameFields g f) = renameDestResult g (destinationOf f) := by
  simp only [destinationOf, renameFields]
  cases f.dst0Tag <;> rfl

theorem secondDestination_rename (op : BinOp) (r : Register) :
    secondDestination op (g r) = (secondDestination op r).map g := by
  cases op <;> rfl

variable {g}

/-- A construction commutes with a renaming when its family's own part, which may read the fields, does. -/
theorem withOperands_renameFields {f : Fields} {build build' : AnySource → AnyDestination → Predicate → WordResult}
    (hb : ∀ src dst pred,
      build' (renameSource g src) (renameDestination g dst) pred = renameResult g (build src dst pred)) :
    withOperands (renameFields g f) build' = renameResult g (withOperands f build) := by
  simp only [withOperands, destinationOf_renameFields, sourceOf_renameFields]
  cases destinationOf f with
  | ok d => exact hb ..
  | error c => rfl

/-- The no-op's placeholder names the index 0 (R120). -/
theorem renamePair_noSpMovement (h0 : g 0 = 0) : renamePair g noSpMovement = noSpMovement := by
  simp only [renamePair, noSpMovement, h0]

theorem popOf_renameSource (h0 : g 0 = 0) (a : AnySource) : popOf (renameSource g a) = renamePair g (popOf a) := by
  have hn := (renamePair_noSpMovement h0).symm
  cases a with
  | advanceStackPointer p => rfl
  | register1 | immediate1 | absoluteStack | relativeStack | codePage => exact hn

theorem pushOf_renameDestination (h0 : g 0 = 0) (d : AnyDestination) :
    pushOf (renameDestination g d) = renamePair g (pushOf d) := by
  have hn := (renamePair_noSpMovement h0).symm
  cases d with
  | advanceStackPointer p => rfl
  | register1 | absoluteStack | relativeStack => exact hn

theorem dispatch_renameFields (h0 : g 0 = 0) (t : OpcodeTag) (f : Fields) :
    dispatch t (renameFields g f) = renameResult g (dispatch t f) := by
  obtain ht | ⟨op, ht⟩ | ht | ht := dispatch_family t <;> rw [ht] <;>
    refine withOperands_renameFields fun src dst pred => ?_
  · rw [popOf_renameSource h0, pushOf_renameDestination h0]; rfl
  · simp only [renameResult, renameRecord, renameFields, secondDestination_rename, swapBit, setFlagsBit]
  · rfl
  · rfl

/-- Decoding commutes with a renaming of the ports (R86, R90). -/
theorem decodeFields_renamePorts (h0 : g 0 = 0) (p : Ports) :
    decodeFields (renamePorts g p) = renameResult g (decodeFields p) := by
  simp only [decodeFields, decodeParts_renamePorts]
  cases decodeParts p with
  | ok t f => exact dispatch_renameFields h0 t f
  | error r => rfl

/-- Taking in a renamed result over the renamed store gives the renamed state. -/
theorem committed_renamed (tbl : ParserTable) (r : WordResult) (s : State) :
    committed (renameResult g r) (renamed g tbl s) = renamed g tbl (committed r s) := by
  cases r with
  | ok ins => simp only [committed, renameResult, recorded, renamed, renameStore_write]
  | error c => rfl

end Renaming

/-- Settles O38: decoding commutes with the renaming, and a step on a word only takes in what it decodes to. -/
theorem registerRenamingCommutes : Obligations.RegisterRenamingCommutes := by
  refine fun g h0 => ⟨decodeFields_renamePorts h0, fun s w tbl hn he hw hp => ?_⟩
  have hd : decodeWord tbl w = renameResult g (decodeWord s.parser w) := by
    rw [decodeWord, hp, decodeFields_renamePorts h0, decodeWord]
  refine ⟨_, step_word hn he hw, ?_⟩
  calc step (renamed g tbl s)
      = .next (committed (decodeWord tbl w) (renamed g tbl (afterHost s))) := step_word (s := renamed g tbl s) hn he hw
    _ = .next (renamed g tbl (committed (decodeWord s.parser w) (afterHost s))) := by rw [hd, committed_renamed]

theorem sourceOf_registers (f : Fields) : (sourceOf f).registers ⊆ [f.rSrc0] := by
  unfold sourceOf
  cases f.src0Tag with
  | imm16 => exact List.nil_subset _
  | reg | absStack | advSp | relStack | codePage => exact List.Subset.refl _

theorem destinationOf_registers {f : Fields} {d : AnyDestination} (h : destinationOf f = .ok d) :
    d.registers = [f.rDst0] := by
  unfold destinationOf at h
  cases ht : f.dst0Tag <;> rw [ht] at h <;> cases h <;> rfl

theorem secondDestination_toList (op : BinOp) (r : Register) : (secondDestination op r).toList ⊆ [r] := by
  cases op with
  | mul | div => exact List.Subset.refl _
  | add | sub | xor | and | or | shl | shr | rol | ror => exact List.nil_subset _

/-- The pop side of a no-op names a register of the source, or the placeholder's (R120, R121). -/
theorem popOf_reg (a : AnySource) : (popOf a).reg ∈ a.registers ∨ (popOf a).reg = 0 := by
  cases a with
  | advanceStackPointer p => exact .inl (List.mem_singleton.2 rfl)
  | register1 | immediate1 | absoluteStack | relativeStack | codePage => exact .inr rfl

/-- The push side of a no-op names a register of the destination, or the placeholder's (R120, R121). -/
theorem pushOf_reg (d : AnyDestination) : (pushOf d).reg ∈ d.registers ∨ (pushOf d).reg = 0 := by
  cases d with
  | advanceStackPointer p => exact .inl (List.mem_singleton.2 rfl)
  | register1 | absoluteStack | relativeStack => exact .inr rfl

/-- Each register index that `ins` names satisfies `P`, or is the 0 of a no-op's placeholder (R120). -/
def CopiesFrom (P : Register → Prop) (ins : Instruction) : Prop :=
  ∀ r ∈ ins.registers, P r ∨ (r = 0 ∧ ∃ pop push pred, ins = .nop pop push pred)

/-- The four register indices among the fields of a word (R62). -/
def fieldRegisters (f : Fields) : List Register := [f.rSrc0, f.rSrc1, f.rDst0, f.rDst1]

theorem mem_fieldRegisters {f : Fields} {r : Register} :
    r ∈ fieldRegisters f ↔ r = f.rSrc0 ∨ r = f.rSrc1 ∨ r = f.rDst0 ∨ r = f.rDst1 := by
  simp only [fieldRegisters, List.mem_cons, List.not_mem_nil, or_false]

theorem sourceOf_registers_subset (f : Fields) : (sourceOf f).registers ⊆ fieldRegisters f := fun _ hr =>
  mem_fieldRegisters.2 (.inl (List.mem_singleton.1 (sourceOf_registers f hr)))

theorem destinationOf_registers_subset {f : Fields} {d : AnyDestination} (h : destinationOf f = .ok d) :
    d.registers ⊆ fieldRegisters f := fun _ hr =>
  mem_fieldRegisters.2 (.inr (.inr (.inl (List.mem_singleton.1 (destinationOf_registers h ▸ hr)))))

/-- A construction that answers a record had its destination resolved. -/
theorem withOperands_ok {f : Fields} {build : AnySource → AnyDestination → Predicate → WordResult}
    {ins : Instruction} (h : withOperands f build = .ok ins) :
    ∃ d, destinationOf f = .ok d ∧ build (sourceOf f) d (mapPredicate f.cond) = .ok ins := by
  obtain ⟨c, -, hw⟩ | ⟨d, hd, hw⟩ := withOperands_cases f build
  · rw [hw] at h
    cases h
  · exact ⟨d, hd, hw ▸ h⟩

theorem nopRecord_copies {f : Fields} {ins : Instruction} (h : nopRecord f = .ok ins) :
    CopiesFrom (· ∈ fieldRegisters f) ins := by
  obtain ⟨d, hd, hb⟩ := withOperands_ok h
  cases hb
  intro r hr
  obtain rfl | rfl : r = (popOf (sourceOf f)).reg ∨ r = (pushOf d).reg := by
    simpa only [Instruction.registers, List.mem_cons, List.not_mem_nil, or_false] using hr
  · exact (popOf_reg _).imp (sourceOf_registers_subset f ·) fun h0 => ⟨h0, _, _, _, rfl⟩
  · exact (pushOf_reg d).imp (destinationOf_registers_subset hd ·) fun h0 => ⟨h0, _, _, _, rfl⟩

theorem binaryRecord_copies {op : BinOp} {f : Fields} {ins : Instruction} (h : binaryRecord op f = .ok ins) :
    CopiesFrom (· ∈ fieldRegisters f) ins := by
  obtain ⟨d, hd, hb⟩ := withOperands_ok h
  cases hb
  intro r hr
  simp only [Instruction.registers, List.mem_append, List.mem_singleton, or_assoc] at hr
  obtain hr | hr | hr | hr := hr
  · exact .inl (sourceOf_registers_subset f hr)
  · exact .inl (mem_fieldRegisters.2 (.inr (.inl hr)))
  · exact .inl (destinationOf_registers_subset hd hr)
  · exact .inl (mem_fieldRegisters.2 (.inr (.inr (.inr (List.mem_singleton.1 (secondDestination_toList _ _ hr))))))

theorem jumpRecord_copies {f : Fields} {ins : Instruction} (h : jumpRecord f = .ok ins) :
    CopiesFrom (· ∈ fieldRegisters f) ins := by
  obtain ⟨d, -, hb⟩ := withOperands_ok h
  cases hb
  exact fun r hr => .inl (sourceOf_registers_subset f hr)

theorem unsupportedRecord_ne_ok (f : Fields) (ins : Instruction) : unsupportedRecord f ≠ .ok ins := by
  intro h
  obtain ⟨d, -, hb⟩ := withOperands_ok h
  cases hb

theorem dispatch_copies {t : OpcodeTag} {f : Fields} {ins : Instruction} (h : dispatch t f = .ok ins) :
    CopiesFrom (· ∈ fieldRegisters f) ins := by
  obtain ht | ⟨op, ht⟩ | ht | ht := dispatch_family t <;> rw [ht] at h
  · exact nopRecord_copies h
  · exact binaryRecord_copies h
  · exact jumpRecord_copies h
  · exact absurd h (unsupportedRecord_ne_ok f ins)

/-- The fields the ports name hold the registers of the ports (R62, R86). -/
theorem fieldRegisters_of_decodeParts {p : Ports} {t : OpcodeTag} {f : Fields} (h : decodeParts p = .ok t f) :
    fieldRegisters f = portRegisters p := by
  unfold decodeParts at h
  split at h
  · cases h
  · split at h
    · cases h
    · split at h
      · cases h
      · cases h
        rfl

/-- A decoded record's register indices are copied from the register ports (R86). -/
theorem decodeFields_copies {p : Ports} {ins : Instruction} (h : decodeFields p = .ok ins) :
    CopiesFrom (· ∈ portRegisters p) ins := by
  unfold decodeFields at h
  split at h
  · next t f hp => exact fieldRegisters_of_decodeParts hp ▸ dispatch_copies h
  · cases h

/-- `r` stands on a register port of image word `j`. -/
def OnPortsOf (s : State) (j : Nat) (r : Register) : Prop :=
  ∃ w, imageRead s j = some w ∧ r ∈ portRegisters (parseWord s.parser w)

theorem registersCopied_iff {s : State} :
    RegistersCopied s ↔ ∀ j ins, (j, ins) ∈ s.prog → CopiesFrom (OnPortsOf s j) ins := Iff.rfl

/-- A write into slot `j` of a record copied from word `j` keeps the property. -/
theorem RegistersCopied.write {s : State} {j : Nat} {ins : Instruction} (h : RegistersCopied s)
    (hc : CopiesFrom (OnPortsOf s j) ins) : RegistersCopied { s with prog := Memory.write s.prog j ins } := by
  refine registersCopied_iff.2 fun i old hm => ?_
  obtain heq | hm := Memory.mem_write hm
  · cases heq
    exact hc
  · exact registersCopied_iff.1 h i old hm

/-- An empty store names no register. -/
theorem registersCopied_of_cleared {s : State} (h : s.prog = Memory.cleared) : RegistersCopied s := by
  intro j ins hm
  rw [h] at hm
  exact absurd hm List.not_mem_nil

/-- A sentinel names no register (R146, R147). -/
theorem selectedSentinel_copies (wrap : Bool) (P : Register → Prop) :
    CopiesFrom P (if wrap then .jumpToBeginning else .endExecution) := by
  cases wrap <;> exact fun r hr => absurd hr List.not_mem_nil

/-- Settles O54, by the rule that made the step. -/
theorem stepKeepsRegistersCopied : Obligations.StepKeepsRegistersCopied := by
  refine ⟨registersCopied_of_cleared rfl, fun s t hinv hstep => ?_⟩
  cases stepTo_of_step hstep with
  | wait => exact hinv
  | word he hw hd => exact hinv.write fun r hr => (decodeFields_copies hd r hr).imp_left fun hp => ⟨_, hw, hp⟩
  | fault => exact registersCopied_of_cleared rfl
  | sentinel => exact hinv.write (selectedSentinel_copies s.wrap _)
  | start => exact registersCopied_of_cleared rfl
  | reset => exact registersCopied_of_cleared rfl
  | csrRead => exact hinv
  | progRead => exact hinv

end Sys2Proof.Machine

/-! PROOFS. The decoded-program store: what PROG_READ answers, and the canonical form: O4, O37. -/

namespace Sys2Proof.Machine

/-- In DONE below `OUT_LEN` the read has the value that the slot holds (R47). -/
theorem progRead_of_readable {s : State} {j : Nat} (hd : s.status = .done) (hj : j < s.outLen.val) :
    progRead s j = Memory.read s.prog j := if_pos ⟨hd, hj⟩

/-- The read has no value outside DONE, at or above `OUT_LEN`, and on a slot that is `None` (R47, R189). -/
theorem progRead_eq_none_iff {s : State} {j : Nat} :
    progRead s j = none ↔ s.status ≠ .done ∨ s.outLen.val ≤ j ∨ Memory.read s.prog j = none := by
  rw [progRead, ite_eq_right_iff, and_imp, ← Nat.not_lt, imp_iff_not_or, imp_iff_not_or]

/-- PROG_READ of a slot that can be read puts its record on the result port (R79, log 6). -/
theorem command_progRead_some {s : State} {j : Nat} {ins : Instruction} (h : progRead s j = some ins) :
    command (.progRead j) s = .next { s with result := some (.prog ins) } := by
  simp only [command, progReadCommand, h]

/-- PROG_READ of a slot that cannot be read is refused (R189). -/
theorem command_progRead_none {s : State} {j : Nat} (h : progRead s j = none) :
    command (.progRead j) s = .refused .progReadNotReadable := by
  simp only [command, progReadCommand, h]

/-- Below a decoded index every slot holds a record. -/
theorem DecodedBelow.read {ws : List Word} {k j : Nat} {s : State} (h : DecodedBelow ws k s) (hj : j < k) :
    ∃ ins, Memory.read s.prog j = some ins := by
  obtain ⟨_, ins, -, -, hr⟩ := h j hj
  exact ⟨ins, hr⟩

/-- The invariant's clause for DONE. -/
theorem SequencerInv.done {s : State} (h : SequencerInv s) (hd : s.status = .done) :
    ∃ ws, OnImage ws s ∧ s.seqIdx = s.nEff ∧ s.outLen.val = s.nEff.val + 1 ∧ s.faultCause = none ∧
      s.faultIndex = 0 ∧ DecodedBelow ws s.nEff.val s ∧
      Memory.read s.prog s.nEff.val = some (sentinelFor ws.length) ∧
      ∀ j, s.nEff.val < j → Memory.read s.prog j = none := by
  obtain ⟨-, -, hphase⟩ := h
  rwa [hd] at hphase

/-- In DONE a slot below `OUT_LEN` is a decoded word's or the sentinel's (R47, R150, R151). -/
theorem SequencerInv.read_of_done {s : State} {j : Nat} (h : SequencerInv s) (hd : s.status = .done)
    (hj : j < s.outLen.val) : ∃ ins, Memory.read s.prog j = some ins := by
  obtain ⟨ws, -, -, hlen, -, -, hdec, hsentinel, -⟩ := h.done hd
  obtain hlt | rfl : j < s.nEff.val ∨ j = s.nEff.val := by omega
  · exact hdec.read hlt
  · exact ⟨_, hsentinel⟩

/-- Settles O4: PROG_READ answers what `progRead` has, and the invariant fills the slots below `OUT_LEN` in DONE. -/
theorem progReadsOnlyInDone : Obligations.ProgReadsOnlyInDone := fun _ _ =>
  ⟨fun _ hd hj hr => command_progRead_some ((progRead_of_readable hd hj).trans hr),
    fun h => command_progRead_none (progRead_eq_none_iff.2 h),
    fun hinv hd hj => hinv.read_of_done hd hj⟩

/-- Settles O37, by the rule that made the step: a word or sentinel step writes one slot up to CODE_CAPACITY, a fault
step, START or RESET clears the store, and every other step leaves it. -/
theorem stepKeepsStoreCanonical : Obligations.StepKeepsStoreCanonical := by
  intro s t hwf hstep
  cases stepTo_of_step hstep with
  | wait => exact hwf
  | word => exact Memory.wf_write hwf (Nat.le_of_lt_succ s.seqIdx.isLt)
  | fault => exact Memory.wf_cleared
  | sentinel => exact Memory.wf_write hwf (Nat.le_of_lt_succ s.nEff.isLt)
  | start => exact Memory.wf_cleared
  | reset => exact reset_prog_wf
  | csrRead => exact hwf
  | progRead => exact hwf

end Sys2Proof.Machine

/-! PROOFS. The codes, the decoder and the encoder are inverse to each other: O6, O7, O8. -/

namespace Sys2Proof

theorem OpcodeTag.code_of_ofCode : ∀ (c : BitVec 5) t, OpcodeTag.ofCode c = some t → t.code = c := by decide

/-- Codes 6 and 7 are the ones no operand tag has (R64). -/
theorem OperandTag.ofCode_eq_none_iff : ∀ c : BitVec 3, OperandTag.ofCode c = none ↔ 6 ≤ c.toNat := by decide

/-- Codes 24 to 31 are the ones no opcode tag has (R63). -/
theorem OpcodeTag.ofCode_eq_none_iff : ∀ c : BitVec 5, OpcodeTag.ofCode c = none ↔ 24 ≤ c.toNat := by decide

@[simp] theorem Instr.parts_ofTag (t : OpcodeTag) (f : Fields) : (Instr.ofTag t f).parts = some (t, f) := by
  cases t <;> rfl

theorem Instr.ofTag_of_parts {i : Instr} {t : OpcodeTag} {f : Fields} (h : i.parts = some (t, f)) :
    Instr.ofTag t f = i := by
  cases i with
  | jumpToBeginning | endExecution => cases h
  | _ => cases h; rfl

/-- The two sentinels are the instructions without parts (R71). -/
theorem Instr.parts_eq_none_iff {i : Instr} : i.parts = none ↔ i = .jumpToBeginning ∨ i = .endExecution := by
  cases i <;> simp [Instr.parts]

/-- A well-formed instruction is an opcode tag with a record of fields. -/
theorem Instr.WellFormed.exists_ofTag {i : Instr} (h : i.WellFormed) : ∃ t f, Instr.ofTag t f = i := by
  obtain ⟨⟨t, f⟩, hp⟩ := Option.isSome_iff_exists.1 h
  exact ⟨t, f, Instr.ofTag_of_parts hp⟩

@[simp] theorem encode_ofTag (t : OpcodeTag) (f : Fields) : encode (Instr.ofTag t f) = some (encodeParts t f) := by
  simp only [encode, Instr.parts_ofTag]

theorem encode_eq_none_iff {i : Instr} : encode i = none ↔ i.parts = none := by
  cases h : i.parts <;> simp [encode, h]

/-- Ports whose three codes are used are read as what the codes name (R62 to R65). -/
theorem decodeParts_of_ofCode {p : Ports} {t : OpcodeTag} {src dst : OperandTag}
    (ht : OpcodeTag.ofCode p.opc = some t) (hs : OperandTag.ofCode p.src0Tag = some src)
    (hd : OperandTag.ofCode p.dst0Tag = some dst) : decodeParts p = .ok t (p.fieldsWith src dst) := by
  simp only [decodeParts, hd, hs, ht]

/-- Ports that are read as an opcode tag and fields have three used codes, and the fields are theirs. -/
theorem decodeParts_ok {p : Ports} {t : OpcodeTag} {f : Fields} (h : decodeParts p = .ok t f) :
    ∃ src dst, OpcodeTag.ofCode p.opc = some t ∧ OperandTag.ofCode p.src0Tag = some src ∧
      OperandTag.ofCode p.dst0Tag = some dst ∧ p.fieldsWith src dst = f := by
  unfold decodeParts at h
  split at h
  · cases h
  next dst hd =>
    split at h
    · cases h
    next src hs =>
      split at h
      · cases h
      next ht =>
        cases h
        exact ⟨src, dst, ht, hs, hd, rfl⟩

theorem decodeParts_encodeParts (t : OpcodeTag) (f : Fields) : decodeParts (encodeParts t f) = .ok t f := by
  rw [decodeParts_of_ofCode (OpcodeTag.ofCode_code t) (OperandTag.ofCode_code _) (OperandTag.ofCode_code _)]
  simp only [Ports.fieldsWith, encodeParts, CondCode.ofCode_code]

theorem encodeParts_of_decodeParts {p : Ports} {t : OpcodeTag} {f : Fields} (h : decodeParts p = .ok t f) :
    encodeParts t f = p := by
  obtain ⟨src, dst, ht, hs, hd, rfl⟩ := decodeParts_ok h
  simp only [encodeParts, Ports.fieldsWith, OpcodeTag.code_of_ofCode _ _ ht, OperandTag.code_of_ofCode _ _ hs,
    OperandTag.code_of_ofCode _ _ hd, CondCode.code_ofCode]

theorem decodePorts_of_decodeParts {p : Ports} {t : OpcodeTag} {f : Fields} (h : decodeParts p = .ok t f) :
    decodePorts p = .ok (Instr.ofTag t f) := by
  simp only [decodePorts, h]

theorem decodePorts_ok {p : Ports} {i : Instr} (h : decodePorts p = .ok i) :
    ∃ t f, decodeParts p = .ok t f ∧ Instr.ofTag t f = i := by
  unfold decodePorts at h
  split at h
  · next t f hp => cases h; exact ⟨t, f, hp, rfl⟩
  · cases h

end Sys2Proof

namespace Sys2Proof.Machine

/-- Settles O6: a well-formed instruction is a tag with fields, whose codes read back as themselves. -/
theorem decodeInvertsEncode : Obligations.DecodeInvertsEncode := by
  intro i hwf
  obtain ⟨t, f, rfl⟩ := hwf.exists_ofTag
  exact ⟨_, encode_ofTag t f, decodePorts_of_decodeParts (decodeParts_encodeParts t f)⟩

/-- Settles O7: the codes a record was read from are the codes of what it was read as. -/
theorem encodeInvertsDecode : Obligations.EncodeInvertsDecode := by
  refine ⟨fun p i h => ?_, fun i => encode_eq_none_iff.trans Instr.parts_eq_none_iff⟩
  obtain ⟨t, f, hp, rfl⟩ := decodePorts_ok h
  rw [encode_ofTag, encodeParts_of_decodeParts hp]

/-- The spec's opcode table (R63) lists each opcode tag's code with the tag's instruction. -/
theorem opcodeRows_eq_map : opcodeRows =
    [OpcodeTag.nop, .add, .sub, .mul, .div, .xor, .and, .or, .shl, .shr, .rol, .ror, .jump, .context, .ptrAdd,
      .ptrSub, .ptrPack, .ptrShrink, .nearCall, .log, .farCall, .ret, .uma, .invalid].map
        fun t => (t.code, Instr.ofTag t) := rfl

theorem ofTag_of_mem_opcodeRows {o : BitVec 5 × (Fields → Instr)} (h : o ∈ opcodeRows) :
    ∃ t, OpcodeTag.ofCode o.1 = some t ∧ Instr.ofTag t = o.2 := by
  rw [opcodeRows_eq_map] at h
  obtain ⟨t, -, rfl⟩ := List.mem_map.1 h
  exact ⟨t, OpcodeTag.ofCode_code t, rfl⟩

theorem ofCode_of_mem_tagRows : ∀ a ∈ tagRows, OperandTag.ofCode a.1 = some a.2 := by decide

theorem ofCode_of_mem_condRows : ∀ k ∈ condRows, CondCode.ofCode k.1 = k.2 := by decide

/-- Settles O8: every row of the three tables is a code with what it decodes to. -/
theorem specRecordsDecode : Obligations.SpecRecordsDecode := by
  intro o ho a ha b hb k hk imm0 imm1 rSrc0 rSrc1 rDst0 rDst1 swap setFlags
  obtain ⟨t, ht, hmk⟩ := ofTag_of_mem_opcodeRows ho
  rw [decodePorts_of_decodeParts
      (decodeParts_of_ofCode ht (ofCode_of_mem_tagRows a ha) (ofCode_of_mem_tagRows b hb)),
    hmk, Ports.fieldsWith, ofCode_of_mem_condRows k hk]

end Sys2Proof.Machine

/-! PROOFS. What DecodeFields makes of the zero word and of unused codes, and which ports it reads: O9, O10, O13. -/

namespace Sys2Proof.Machine

/-- Settles O9: the all-zero record has the codes of a no-op on two registers. -/
theorem zeroWordIsNop : Obligations.ZeroWordIsNop := by
  refine fun t => ⟨parseWord_zero t, ?_⟩
  rw [decodeWord, parseWord_zero]
  rfl

theorem decodeFields_of_error {p : Ports} {r : DecodeReject} (h : decodeParts p = .error r) :
    decodeFields p = .error (rejectCause r) := by
  simp only [decodeFields, h]

/-- An unused operand-tag code is an EncodingViolation on either port (R73). -/
theorem decodeFields_of_unusedTag {p : Ports}
    (h : OperandTag.ofCode p.src0Tag = none ∨ OperandTag.ofCode p.dst0Tag = none) :
    decodeFields p = .error .encodingViolation := by
  cases hd : OperandTag.ofCode p.dst0Tag with
  | none => exact decodeFields_of_error (r := .unusedDestinationTag p.dst0Tag) (by simp only [decodeParts, hd])
  | some dst =>
    have hs : OperandTag.ofCode p.src0Tag = none := h.resolve_right (by simp [hd])
    exact decodeFields_of_error (r := .unusedSourceTag p.src0Tag) (by simp only [decodeParts, hd, hs])

/-- With used tags an unused opcode is refused with the destination tag kept (R138, R165). -/
theorem decodeFields_of_unusedOpcode {p : Ports} {src dst : OperandTag} (ho : OpcodeTag.ofCode p.opc = none)
    (hs : OperandTag.ofCode p.src0Tag = some src) (hd : OperandTag.ofCode p.dst0Tag = some dst) :
    decodeFields p = .error (rejectCause (.unusedOpcode p.opc dst)) :=
  decodeFields_of_error (by simp only [decodeParts, hd, hs, ho])

/-- An unused opcode is UnsupportedOpcode, unless its destination faults first (R138, R165). -/
theorem rejectCause_unusedOpcode (c : BitVec 5) (dst : OperandTag) :
    rejectCause (.unusedOpcode c dst) =
      if dst = .imm16 ∨ dst = .codePage then .encodingViolation else .unsupportedOpcode := by
  cases dst <;> rfl

/-- The codes of the destination tags that fault (R64, R88). -/
theorem ofCode_faulting_iff : ∀ (c : BitVec 3) t, OperandTag.ofCode c = some t →
    ((t = .imm16 ∨ t = .codePage) ↔ (c.toNat = 1 ∨ c.toNat = 5)) := by decide

theorem exists_ofCode_of_lt {c : BitVec 3} (h : c.toNat < 6) : ∃ t, OperandTag.ofCode c = some t :=
  Option.ne_none_iff_exists'.1 fun hn => absurd ((OperandTag.ofCode_eq_none_iff c).1 hn) (Nat.not_le.2 h)

/-- Settles O10: each unused code is refused by name, and the name has the cause the rules give. -/
theorem unusedCodesFault : Obligations.UnusedCodesFault := by
  refine fun p => ⟨fun h => decodeFields_of_unusedTag ?_, fun ho hs hd => ?_⟩
  · exact h.imp (OperandTag.ofCode_eq_none_iff _).2 (OperandTag.ofCode_eq_none_iff _).2
  · obtain ⟨src, hs⟩ := exists_ofCode_of_lt hs
    obtain ⟨dst, hd⟩ := exists_ofCode_of_lt hd
    rw [decodeFields_of_unusedOpcode ((OpcodeTag.ofCode_eq_none_iff _).2 ho) hs hd, rejectCause_unusedOpcode]
    simp only [ofCode_faulting_iff _ _ hd, apply_ite WordResult.error]

/-- A construction that drops its destination reads no more of it than whether its tag faults (R88, R117, R126). -/
theorem withOperands_of_dropped (f : Fields) (build : AnySource → Predicate → WordResult) :
    withOperands f (fun src _ pred => build src pred) =
      if f.dst0Tag = .imm16 ∨ f.dst0Tag = .codePage then .error .encodingViolation
      else build (sourceOf f) (mapPredicate f.cond) := by
  simp only [withOperands, destinationOf]
  cases f.dst0Tag <;> rfl

section Congr

variable {f g : Fields}

theorem sourceOf_congr (ht : f.src0Tag = g.src0Tag) (hi : f.imm0 = g.imm0) (hr : f.rSrc0 = g.rSrc0) :
    sourceOf f = sourceOf g := by
  simp only [sourceOf, ht, hi, hr]

theorem destinationOf_congr (ht : f.dst0Tag = g.dst0Tag) (hi : f.imm1 = g.imm1) (hr : f.rDst0 = g.rDst0) :
    destinationOf f = destinationOf g := by
  simp only [destinationOf, ht, hi, hr]

theorem binaryRecord_congr {op : BinOp} (hs : sourceOf f = sourceOf g) (hd : destinationOf f = destinationOf g)
    (hc : f.cond = g.cond) (hr : f.rSrc1 = g.rSrc1) (hw : f.swap = g.swap) (hf : f.setFlags = g.setFlags)
    (h2 : secondDestination op f.rDst1 = secondDestination op g.rDst1) :
    binaryRecord op f = binaryRecord op g := by
  simp only [binaryRecord, withOperands, swapBit, setFlagsBit, hs, hd, hc, hr, hw, hf, h2]

theorem jumpRecord_congr (hs : sourceOf f = sourceOf g) (ht : f.dst0Tag = g.dst0Tag) (hc : f.cond = g.cond) :
    jumpRecord f = jumpRecord g := by
  simp only [jumpRecord, withOperands_of_dropped _ fun src pred => .ok (.jump src pred), hs, ht, hc]

theorem nopRecord_congr (hs : sourceOf f = sourceOf g) (hd : destinationOf f = destinationOf g)
    (hc : f.cond = g.cond) : nopRecord f = nopRecord g := by
  simp only [nopRecord, withOperands, hs, hd, hc]

theorem unsupportedRecord_congr (ht : f.dst0Tag = g.dst0Tag) : unsupportedRecord f = unsupportedRecord g := by
  simp only [unsupportedRecord, withOperands_of_dropped _ fun _ _ => .error .unsupportedOpcode, ht]

end Congr

/-- Opcodes 1 to 11 build a binary record (R63, R71). -/
theorem dispatch_binary {t : OpcodeTag} (h1 : 1 ≤ t.code.toNat) (h11 : t.code.toNat ≤ 11) :
    ∃ op, dispatch t = binaryRecord op ∧ (op = .mul ∨ op = .div → t.code.toNat = 3 ∨ t.code.toNat = 4) := by
  cases t with
  | nop => exact absurd h1 (by decide)
  | add | sub | mul | div | xor | and | or | shl | shr | rol | ror => exact ⟨_, rfl, by decide⟩
  | _ => exact absurd h11 (by decide)

theorem dispatch_jump {t : OpcodeTag} (h : t.code.toNat = 12) : dispatch t = jumpRecord := by
  cases t with
  | jump => rfl
  | _ => exact absurd h (by decide)

theorem dispatch_nop {t : OpcodeTag} (h : t.code.toNat = 0) : dispatch t = nopRecord := by
  cases t with
  | nop => rfl
  | _ => exact absurd h (by decide)

/-- Opcodes from 13 up are the unimplemented families (R126). -/
theorem dispatch_unsupported {t : OpcodeTag} (h : 13 ≤ t.code.toNat) : dispatch t = unsupportedRecord := by
  cases t with
  | context | ptrAdd | ptrSub | ptrPack | ptrShrink | nearCall | log | farCall | ret | uma | invalid => rfl
  | _ => exact absurd h (by decide)

/-- Only MUL and DIV read the second destination register (R100). -/
theorem secondDestination_congr {op : BinOp} {r r' : Register} (h : op = .mul ∨ op = .div → r = r') :
    secondDestination op r = secondDestination op r' := by
  cases op with
  | mul => rw [h (.inl rfl)]
  | div => rw [h (.inr rfl)]
  | _ => rfl

/-- Records with the same codes decode equally when the construction their opcode selects makes the same of their
fields. -/
theorem decodeFields_congr {p q : Ports} (ho : p.opc = q.opc) (hs : p.src0Tag = q.src0Tag)
    (hd : p.dst0Tag = q.dst0Tag)
    (h : ∀ t src dst, t.code = p.opc → dispatch t (p.fieldsWith src dst) = dispatch t (q.fieldsWith src dst)) :
    decodeFields p = decodeFields q := by
  simp only [decodeFields, decodeParts, ← ho, ← hs, ← hd]
  cases OperandTag.ofCode p.dst0Tag with
  | none => rfl
  | some dst =>
    cases OperandTag.ofCode p.src0Tag with
    | none => rfl
    | some src =>
      cases ht : OpcodeTag.ofCode p.opc with
      | none => rfl
      | some t => exact h t src dst (OpcodeTag.code_of_ofCode _ _ ht)

/-- Settles O13, by the family the opcode selects. -/
theorem familiesReadOnlyTheirFields : Obligations.FamiliesReadOnlyTheirFields := by
  intro p q ho hs hd
  refine ⟨fun h1 h11 hi0 hrs0 hrs1 hi1 hrd0 hc hw hf hrd1 => ?_, fun h12 hi0 hrs0 hc => ?_,
    fun h0 hi0 hrs0 hi1 hrd0 hc => ?_, fun h13 => ?_⟩ <;>
    refine decodeFields_congr ho hs hd fun t src dst ht => ?_
  · rw [← ht] at h1 h11 hrd1
    obtain ⟨op, hop, h2⟩ := dispatch_binary h1 h11
    rw [hop]
    exact binaryRecord_congr (sourceOf_congr rfl hi0 hrs0) (destinationOf_congr rfl hi1 hrd0)
      (congrArg CondCode.ofCode hc) hrs1 hw hf (secondDestination_congr (hrd1 ∘ h2))
  · rw [dispatch_jump (ht ▸ h12)]
    exact jumpRecord_congr (sourceOf_congr rfl hi0 hrs0) rfl (congrArg CondCode.ofCode hc)
  · rw [dispatch_nop (ht ▸ h0)]
    exact nopRecord_congr (sourceOf_congr rfl hi0 hrs0) (destinationOf_congr rfl hi1 hrd0)
      (congrArg CondCode.ofCode hc)
  · rw [dispatch_unsupported (ht ▸ h13)]
    exact unsupportedRecord_congr rfl

end Sys2Proof.Machine

/-! PROOFS. The host's ports: what CSR_READ answers, and the transaction that is due: O3, O5. -/

namespace Sys2Proof.Machine

/-- A step with a transaction due is that transaction, after the host's entry is used up (log 5). -/
theorem step_of_due {s : State} {c : Command} {rest : List (Option Command)} (h : s.host = some c :: rest) :
    step s = command c { s with host := rest } := by
  simp only [step, h]

/-- Settles O5: it is what the third case of `step` says. -/
theorem dueTransactionTakesTheStep : Obligations.DueTransactionTakesTheStep := fun _ _ _ => step_of_due

/-- The number that register `k` of R29 shows the host; 0 where there is no such register. -/
def csrNumber (s : State) : Nat → Nat
  | 0 => statusCode s.status
  | 1 => shownSeqIdx s
  | 2 => s.nEff.val
  | 3 => s.wrap.toNat
  | 4 => s.outLen.val
  | 5 => faultCauseCode s.faultCause
  | 6 => s.faultIndex.val
  | _ => 0

theorem csrRead_of_lt (s : State) {k : Nat} (hk : k < 7) :
    csrRead s k = some (BitVec.ofNat 32 (csrNumber s k)) := by
  interval_cases k <;> rfl

theorem csrRead_of_ge (s : State) : ∀ {k : Nat}, 7 ≤ k → csrRead s k = none
  | _ + 7, _ => rfl

theorem shownSeqIdx_of_not_busy {s : State} (h : s.status ≠ .busy) : shownSeqIdx s = s.seqIdx.val := if_neg h

/-- A realization shows `SEQ_IDX` as itself or as 0 (R158, log 8). -/
theorem shownSeqIdx_cases (s : State) : shownSeqIdx s = s.seqIdx.val ∨ shownSeqIdx s = 0 := by
  unfold shownSeqIdx
  split
  · split
    · exact .inl rfl
    · exact .inr rfl
  · exact .inl rfl

/-- Every register fits the 17 bits that `CODE_CAPACITY + 1` needs (R29). -/
theorem csrNumber_lt (s : State) (k : Nat) : csrNumber s k < 2 ^ 17 := by
  have hcap := codeCapacity_eq
  have hidx := shownSeqIdx_cases s
  unfold csrNumber
  split
  · cases s.status <;> decide
  · omega
  · omega
  · cases s.wrap <;> decide
  · omega
  · cases s.faultCause with
    | none => decide
    | some c => cases c <;> decide
  · omega
  · decide

/-- Zero-extension to 32 bits loses nothing of a register (R79). -/
theorem toNat_csrNumber (s : State) (k : Nat) : (BitVec.ofNat 32 (csrNumber s k)).toNat = csrNumber s k := by
  rw [BitVec.toNat_ofNat, Nat.mod_eq_of_lt ((csrNumber_lt s k).trans (by decide))]

theorem command_csrRead_some {s : State} {k : Nat} {v : BitVec 32} (h : csrRead s k = some v) :
    command (.csrRead k) s = .next { s with result := some (.csr v) } := by
  simp only [command, csrReadCommand, h]

theorem command_csrRead_none {s : State} {k : Nat} (h : csrRead s k = none) :
    command (.csrRead k) s = .refused .csrReadNoRegister := by
  simp only [command, csrReadCommand, h]

theorem doneOutput_iff (s : State) : doneOutput s = true ↔ s.status = .done ∨ s.status = .fault :=
  decide_eq_true_iff

/-- Settles O3: the answer is the register's number, which fits 32 bits. -/
theorem statusReadsReturnRegisters : Obligations.StatusReadsReturnRegisters := by
  refine ⟨doneOutput_iff, fun s k => ⟨fun hk => command_csrRead_none (csrRead_of_ge s hk), fun hk => ?_⟩⟩
  refine ⟨_, command_csrRead_some (csrRead_of_lt s hk), ?_⟩
  rw [toNat_csrNumber]
  refine ⟨?_, ?_, ?_, ?_, ?_, ?_, ?_, ?_⟩ <;> rintro rfl
  · rfl
  · exact shownSeqIdx_of_not_busy
  · exact fun _ => shownSeqIdx_cases s
  · rfl
  · exact Bool.cond_eq_ite ..
  · rfl
  · rfl
  · rfl

end Sys2Proof.Machine

/-! PROOFS. The destination's fault, the predicate mapper and the operand resolvers: O11, O14, O15, O16, O17. -/

namespace Sys2Proof.Machine

/-- An immediate or code-page destination does not resolve (R88). -/
theorem destinationOf_of_faultingTag {f : Fields} (h : f.dst0Tag = .imm16 ∨ f.dst0Tag = .codePage) :
    destinationOf f = .error .encodingViolation := by
  obtain h | h := h <;> rw [destinationOf, h] <;> rfl

/-- Every construction reports its destination's fault before anything else (R89, R165). -/
theorem withOperands_of_error {f : Fields} {c : FaultCause} (h : destinationOf f = .error c)
    (build : AnySource → AnyDestination → Predicate → WordResult) : withOperands f build = .error c := by
  simp only [withOperands, h]

/-- Every family resolves its destination, the jump and the unimplemented ones included (R89). -/
theorem dispatch_of_error {f : Fields} {c : FaultCause} (h : destinationOf f = .error c) (t : OpcodeTag) :
    dispatch t f = .error c := by
  obtain ht | ⟨op, ht⟩ | ht | ht := dispatch_family t <;> rw [ht] <;> exact withOperands_of_error h _

/-- Used codes decode to what Dispatch makes of the fields they name (R76). -/
theorem decodeFields_of_ofCode {p : Ports} {t : OpcodeTag} {src dst : OperandTag}
    (ht : OpcodeTag.ofCode p.opc = some t) (hs : OperandTag.ofCode p.src0Tag = some src)
    (hd : OperandTag.ofCode p.dst0Tag = some dst) : decodeFields p = dispatch t (p.fieldsWith src dst) := by
  simp only [decodeFields, decodeParts_of_ofCode ht hs hd]

/-- Settles O11: an unused source tag has the same cause, an unused opcode yields to the destination's fault, and
every family resolves its destination. -/
theorem destinationFaultIsUnconditional : Obligations.DestinationFaultIsUnconditional := by
  intro p h
  obtain ⟨dst, hd⟩ := exists_ofCode_of_lt (c := p.dst0Tag) (by omega)
  have hf : dst = .imm16 ∨ dst = .codePage := (ofCode_faulting_iff _ _ hd).2 h
  cases hs : OperandTag.ofCode p.src0Tag with
  | none => exact decodeFields_of_unusedTag (.inl hs)
  | some src =>
    cases ho : OpcodeTag.ofCode p.opc with
    | none => rw [decodeFields_of_unusedOpcode ho hs hd, rejectCause_unusedOpcode, if_pos hf]
    | some t =>
      rw [decodeFields_of_ofCode ho hs hd]
      exact dispatch_of_error (destinationOf_of_faultingTag hf) t

/-- Every value of the 3-bit port is the code of exactly one condition (R65). -/
theorem ofCode_bijective : Function.Bijective CondCode.ofCode :=
  Function.bijective_iff_has_inverse.2 ⟨CondCode.code, CondCode.code_ofCode, CondCode.ofCode_code⟩

/-- The one condition code that a predicate renames (R82). -/
def Predicate.condCode : Predicate → CondCode
  | .always => .c0
  | .ifGT => .c1
  | .ifLT => .c2
  | .ifEQ => .c3
  | .ifGE => .c4
  | .ifLE => .c5
  | .ifNotEQ => .c6
  | .ifGtOrLT => .c7

@[simp] theorem condCode_mapPredicate (c : CondCode) : (mapPredicate c).condCode = c := by cases c <;> rfl

@[simp] theorem mapPredicate_condCode (q : Predicate) : mapPredicate q.condCode = q := by cases q <;> rfl

theorem mapPredicate_bijective : Function.Bijective mapPredicate :=
  Function.bijective_iff_has_inverse.2 ⟨Predicate.condCode, condCode_mapPredicate, mapPredicate_condCode⟩

/-- Settles O14: the table is checked on its eight codes; the renaming has an inverse. -/
theorem predicateRenaming : Obligations.PredicateRenaming := by
  have hb := mapPredicate_bijective.comp ofCode_bijective
  exact ⟨by decide, fun _ _ h => hb.injective h, hb.surjective⟩

/-- Settles O15, tag by tag. -/
theorem sourceResolution : Obligations.SourceResolution := by
  refine ⟨fun _ _ => ⟨rfl, rfl, rfl, rfl, rfl, rfl⟩, fun f => ?_⟩
  rw [sourceOf]
  cases f.src0Tag <;> rfl

/-- Settles O16, tag by tag. -/
theorem destinationResolution : Obligations.DestinationResolution := by
  refine ⟨fun _ _ => ⟨rfl, rfl, rfl, rfl, rfl, rfl⟩, fun f => ?_⟩
  rw [destinationOf]
  cases f.dst0Tag <;> rfl

/-- Settles O17: each kind of operand comes from the tag of its name, with its own immediate and register. -/
theorem everyOperandIsReachable : Obligations.EveryOperandIsReachable := by
  refine ⟨fun a => ?_, fun d => ?_⟩
  · cases a with
    | register1 r => exact ⟨.reg, 0, r, rfl⟩
    | immediate1 v => exact ⟨.imm16, v, 0, rfl⟩
    | absoluteStack p => exact ⟨.absStack, p.offset, p.reg, rfl⟩
    | advanceStackPointer p => exact ⟨.advSp, p.offset, p.reg, rfl⟩
    | relativeStack p => exact ⟨.relStack, p.offset, p.reg, rfl⟩
    | codePage p => exact ⟨.codePage, p.offset, p.reg, rfl⟩
  · cases d with
    | register1 r => exact ⟨.reg, 0, r, rfl⟩
    | absoluteStack p => exact ⟨.absStack, p.offset, p.reg, rfl⟩
    | advanceStackPointer p => exact ⟨.advSp, p.offset, p.reg, rfl⟩
    | relativeStack p => exact ⟨.relStack, p.offset, p.reg, rfl⟩

end Sys2Proof.Machine

/-! PROOFS. The binary family: which words fault, and the record each operation completes with: O12, O18, O19. -/

namespace Sys2Proof.Machine

/-- A construction on a destination that resolves is the family's own (R76). -/
theorem withOperands_of_ok {f : Fields} {d : AnyDestination} (h : destinationOf f = .ok d)
    (build : AnySource → AnyDestination → Predicate → WordResult) :
    withOperands f build = build (sourceOf f) d (mapPredicate f.cond) := by
  simp only [withOperands, h]

/-- The binary constructor on a destination that resolves (R99, R100). -/
theorem binaryRecord_of_ok {f : Fields} {d : AnyDestination} (h : destinationOf f = .ok d) (op : BinOp) :
    binaryRecord op f = .ok (binaryWith op (fun g => secondDestination op g.rDst1) f d) :=
  withOperands_of_ok h _

/-- Every destination tag but IMM16 and CODE_PAGE resolves (R87, R88). -/
theorem exists_destinationOf_ok {f : Fields} (h : ¬(f.dst0Tag = .imm16 ∨ f.dst0Tag = .codePage)) :
    ∃ d, destinationOf f = .ok d := by
  rw [destinationOf]
  cases ht : f.dst0Tag with
  | imm16 => exact absurd (.inl ht) h
  | codePage => exact absurd (.inr ht) h
  | reg | absStack | advSp | relStack => exact ⟨_, rfl⟩

theorem exists_opcodeTag_of_lt {c : BitVec 5} (h : c.toNat < 24) : ∃ t, OpcodeTag.ofCode c = some t :=
  Option.ne_none_iff_exists'.1 fun hn => absurd ((OpcodeTag.ofCode_eq_none_iff c).1 hn) (Nat.not_le.2 h)

/-- A binary opcode with used operand tags decodes to what the binary constructor makes of its fields (R76, R99). -/
theorem decodeFields_of_binaryOpcode {p : Ports} {src dst : OperandTag} (h1 : 1 ≤ p.opc.toNat)
    (h11 : p.opc.toNat ≤ 11) (hs : OperandTag.ofCode p.src0Tag = some src)
    (hd : OperandTag.ofCode p.dst0Tag = some dst) :
    ∃ op, decodeFields p = binaryRecord op (p.fieldsWith src dst) := by
  obtain ⟨t, ht⟩ := exists_opcodeTag_of_lt (c := p.opc) (by omega)
  rw [← OpcodeTag.code_of_ofCode _ _ ht] at h1 h11
  obtain ⟨op, hop, -⟩ := dispatch_binary h1 h11
  exact ⟨op, by rw [decodeFields_of_ofCode ht hs hd, hop]⟩

/-- Settles O12: the four bad tags are the faults of O10 and O11; every other tag is used and its destination
resolves. -/
theorem binaryFaultSet : Obligations.BinaryFaultSet := by
  intro p h1 h11
  by_cases hbad : p.dst0Tag.toNat = 1 ∨ p.dst0Tag.toNat = 5 ∨ 6 ≤ p.dst0Tag.toNat ∨ 6 ≤ p.src0Tag.toNat
  · have herr : decodeFields p = .error .encodingViolation := by
      obtain h | h | h | h := hbad
      · exact destinationFaultIsUnconditional p (.inl h)
      · exact destinationFaultIsUnconditional p (.inr h)
      · exact (unusedCodesFault p).1 (.inr h)
      · exact (unusedCodesFault p).1 (.inl h)
    exact ⟨iff_of_true herr hbad, fun hne => absurd herr hne⟩
  · obtain ⟨src, hs⟩ := exists_ofCode_of_lt (c := p.src0Tag) (by omega)
    obtain ⟨dst, hd⟩ := exists_ofCode_of_lt (c := p.dst0Tag) (by omega)
    have hdst : ¬(dst = .imm16 ∨ dst = .codePage) := mt (ofCode_faulting_iff _ _ hd).1 (by omega)
    obtain ⟨d, hres⟩ := exists_destinationOf_ok (f := p.fieldsWith src dst) hdst
    obtain ⟨op, hop⟩ := decodeFields_of_binaryOpcode h1 h11 hs hd
    have hok := hop.trans (binaryRecord_of_ok hres op)
    exact ⟨iff_of_false (by rw [hok]; nofun) hbad, fun _ => ⟨_, _, _, _, _, _, _, _, hok⟩⟩

/-- Where a word step is enabled, a word's instruction completes with what Dispatch builds (R150, R152). -/
theorem exec_ofTag_of_enabled {s : State} (he : WordStepEnabled s) (t : OpcodeTag) (f : Fields) :
    exec (Instr.ofTag t f) s = .next (committed (dispatch t f) s) := by
  rw [exec_ofTag, commit_of_enabled he]

/-- A family that constructs `record` on every destination that resolves builds it as R76 says: the destination's
fault and the frame of either step are the same for all families. -/
theorem buildsRecord_of_dispatch {t : OpcodeTag} {record : Fields → AnyDestination → Instruction}
    (h : ∀ f d, destinationOf f = .ok d → dispatch t f = .ok (record f d)) :
    BuildsRecord (Instr.ofTag t) record := by
  refine fun f s he => ⟨fun d hd => ⟨recorded (record f d) s, ?_, recorded_stores he _⟩,
    fun hf => ⟨faulted .encodingViolation s, ?_, faulted_takes he _⟩⟩
  · rw [exec_ofTag_of_enabled he, h f d hd, committed]
  · rw [exec_ofTag_of_enabled he, dispatch_of_error (destinationOf_of_faultingTag hf), committed]

/-- An opcode of the binary family builds its operation's record, its second destination as R100 gives it. -/
theorem buildsRecord_binary (t : OpcodeTag) {op : BinOp} (ht : dispatch t = binaryRecord op) :
    BuildsRecord (Instr.ofTag t) (binaryWith op fun f => secondDestination op f.rDst1) :=
  buildsRecord_of_dispatch fun f _ hd => (congrFun ht f).trans (binaryRecord_of_ok hd op)

/-- Settles O18: R100 gives these nine operations no second destination. -/
theorem singleDestinationBinaryRecords : Obligations.SingleDestinationBinaryRecords :=
  ⟨buildsRecord_binary .add rfl, buildsRecord_binary .sub rfl, buildsRecord_binary .xor rfl,
    buildsRecord_binary .and rfl, buildsRecord_binary .or rfl, buildsRecord_binary .shl rfl,
    buildsRecord_binary .shr rfl, buildsRecord_binary .rol rfl, buildsRecord_binary .ror rfl⟩

/-- Settles O19: R100 binds the second destination register of MUL and DIV. -/
theorem mulDivRecords : Obligations.MulDivRecords :=
  ⟨buildsRecord_binary .mul rfl, buildsRecord_binary .div rfl⟩

end Sys2Proof.Machine

/-! PROOFS. The decoded jump: what it completes with, and what it ignores: O20, O21. -/

namespace Sys2Proof.Machine

/-- The jump constructor on a destination that resolves, which it drops (R116, R117). -/
theorem jumpRecord_of_ok {f : Fields} {d : AnyDestination} (h : destinationOf f = .ok d) :
    jumpRecord f = .ok (.jump (sourceOf f) (mapPredicate f.cond)) :=
  withOperands_of_ok h _

/-- Settles O20: on a destination that resolves, Dispatch builds the jump's record without it. -/
theorem jumpRecords : Obligations.JumpRecords :=
  buildsRecord_of_dispatch (t := .jump) fun _ _ hd => jumpRecord_of_ok hd

/-- Settles O21: the record has only the target and the predicate, and each is a function of the fields the two
words share. -/
theorem jumpIgnoresOtherFields : Obligations.JumpIgnoresOtherFields := by
  intro f g s d e hf hg htag himm hreg hcond
  have hrec : jumpRecord f = jumpRecord g := by
    rw [jumpRecord_of_ok hf, jumpRecord_of_ok hg, sourceOf_congr htag himm hreg, hcond]
  calc exec (.jump f) s
    _ = commit (jumpRecord f) s := exec_ofTag .jump f s
    _ = commit (jumpRecord g) s := by rw [hrec]
    _ = exec (.jump g) s := (exec_ofTag .jump g s).symm

end Sys2Proof.Machine

/-! PROOFS. The no-operation: the two stack-pointer adjustments it completes with: O22. -/

namespace Sys2Proof.Machine

/-- The pop side of a word's no-op is read off its source tag (R84, R121). -/
theorem popOf_sourceOf (f : Fields) :
    popOf (sourceOf f) = if f.src0Tag = .advSp then ⟨f.imm0, f.rSrc0⟩ else noSpMovement := by
  rw [sourceOf]
  cases f.src0Tag <;> rfl

/-- The push side of a word's no-op is read off its destination tag, where that resolves (R87, R121). -/
theorem pushOf_destinationOf {f : Fields} {d : AnyDestination} (h : destinationOf f = .ok d) :
    pushOf d = if f.dst0Tag = .advSp then ⟨f.imm1, f.rDst0⟩ else noSpMovement := by
  rw [destinationOf] at h
  cases ht : f.dst0Tag with
  | imm16 | codePage => rw [ht] at h; nomatch h
  | reg | absStack | advSp | relStack => rw [ht] at h; cases h; rfl

/-- The no-op constructor on a destination that resolves (R121). -/
theorem nopRecord_of_ok {f : Fields} {d : AnyDestination} (h : destinationOf f = .ok d) :
    nopRecord f = .ok (.nop (popOf (sourceOf f)) (pushOf d) (mapPredicate f.cond)) :=
  withOperands_of_ok h _

/-- Settles O22: on a destination that resolves, Dispatch builds the no-op's record, and each of its sides is read
off the word's own tag. -/
theorem nopRecords : Obligations.NopRecords :=
  buildsRecord_of_dispatch (t := .nop) fun f d hd => by
    rw [dispatch, nopRecord_of_ok hd, popOf_sourceOf, pushOf_destinationOf hd]
    rfl

end Sys2Proof.Machine

/-! PROOFS. The unimplemented families: the fault that is their whole effect: O23. -/

namespace Sys2Proof.Machine

/-- The opcodes of the eleven unimplemented families (R126). -/
def unimplementedTags : List OpcodeTag :=
  [.context, .ptrAdd, .ptrSub, .ptrPack, .ptrShrink, .nearCall, .log, .farCall, .ret, .uma, .invalid]

theorem unimplemented_eq_map : unimplemented = unimplementedTags.map Instr.ofTag := rfl

theorem le_code_of_mem_unimplementedTags : ∀ t ∈ unimplementedTags, 13 ≤ t.code.toNat := by decide

/-- The rule of R126 in full: the destination tag alone decides which fault it is (R165). -/
theorem unsupportedRecord_eq_error (f : Fields) :
    unsupportedRecord f =
      .error (if f.dst0Tag = .imm16 ∨ f.dst0Tag = .codePage then .encodingViolation else .unsupportedOpcode) := by
  rw [unsupportedRecord, withOperands_of_dropped f fun _ _ => .error .unsupportedOpcode,
    apply_ite WordResult.error]

/-- Settles O23: Dispatch sends each of the eleven opcodes to the one rule of R126, and the step taken on an error is
the fault step. -/
theorem unimplementedFamiliesFault : Obligations.UnimplementedFamiliesFault := by
  intro mk hmk f s he
  rw [unimplemented_eq_map] at hmk
  obtain ⟨t, ht, rfl⟩ := List.mem_map.1 hmk
  have hd : dispatch t = unsupportedRecord := dispatch_unsupported (le_code_of_mem_unimplementedTags t ht)
  refine ⟨_, ?_, faulted_takes he _⟩
  rw [exec_ofTag_of_enabled he, hd, unsupportedRecord_eq_error, committed]

end Sys2Proof.Machine

/-! PROOFS. START, the instructions and the block's own step: O2, O24 to O33. -/

namespace Sys2Proof.Machine

/-- START outside BUSY is accepted (R148). -/
theorem command_start_of_not_busy {s : State} (h : s.status ≠ .busy) (img : List Word) :
    command (.start img) s = .next (started img s) := if_neg h

/-- START while BUSY is refused (R190). -/
theorem command_start_of_busy {s : State} (h : s.status = .busy) (img : List Word) :
    command (.start img) s = .refused .startWhileBusy := if_pos h

/-- Settles O2: outside BUSY every field is read off `started`, which START answers there. -/
theorem startSetsUpDecode : Obligations.StartSetsUpDecode := fun img s =>
  ⟨fun h => ⟨started img s, command_start_of_not_busy h img, rfl, rfl, decide_eq_true_iff, rfl, rfl, rfl, rfl,
      Memory.read_cleared, rfl, rfl, rfl, rfl⟩,
    fun h => command_start_of_busy h img⟩

theorem storeSentinel_of_enabled {wrap : Bool} {s : State} (he : SentinelStepEnabled wrap s) (ins : Instruction) :
    storeSentinel wrap ins s = .next (finished ins s) := if_pos he

theorem storeSentinel_of_not_enabled {wrap : Bool} {s : State} (he : ¬SentinelStepEnabled wrap s)
    (ins : Instruction) : storeSentinel wrap ins s = .fault .sentinelStepNotEnabled := if_neg he

theorem storeSentinel_next_iff {wrap : Bool} {ins : Instruction} {s : State} :
    (∃ t, storeSentinel wrap ins s = .next t) ↔ SentinelStepEnabled wrap s :=
  ⟨fun ⟨_, h⟩ => (storeSentinel_next h).1, fun he => ⟨_, storeSentinel_of_enabled he ins⟩⟩

/-- Settles O24: each sentinel's step is enabled where WRAP selects that sentinel. -/
theorem sentinelsComplete : Obligations.SentinelsComplete := fun s hb hi =>
  ⟨fun hw => ⟨_, storeSentinel_of_enabled ⟨hb, hi, hw⟩ _, finished_stores s _⟩,
    fun hw => ⟨_, storeSentinel_of_enabled ⟨hb, hi, hw⟩ _, finished_stores s _⟩⟩

theorem commit_of_not_enabled {s : State} (he : ¬WordStepEnabled s) (r : WordResult) :
    commit r s = .fault .wordStepNotEnabled := by
  cases r with
  | ok ins => exact if_neg he
  | error c => exact if_neg he

theorem exec_ofTag_next_iff {t : OpcodeTag} {f : Fields} {s : State} :
    (∃ u, exec (Instr.ofTag t f) s = .next u) ↔ WordStepEnabled s := by
  rw [exec_ofTag]
  exact ⟨fun ⟨_, h⟩ => (commit_next h).1, fun he => ⟨_, commit_of_enabled he _⟩⟩

/-- An instruction is a word's, an opcode tag with fields, or one of the two sentinels (R71). -/
theorem ofTag_or_sentinel (i : Instr) :
    (∃ t f, Instr.ofTag t f = i) ∨ i = .jumpToBeginning ∨ i = .endExecution := by
  cases h : i.parts with
  | some p => exact .inl ⟨p.1, p.2, Instr.ofTag_of_parts h⟩
  | none => exact .inr (Instr.parts_eq_none_iff.1 h)

theorem ofTag_ne_sentinel (t : OpcodeTag) (f : Fields) :
    Instr.ofTag t f ≠ .jumpToBeginning ∧ Instr.ofTag t f ≠ .endExecution := by
  rw [← not_or, ← Instr.parts_eq_none_iff, Instr.parts_ofTag]
  exact Option.some_ne_none _

/-- An instruction answers a next state exactly where its own step is enabled (R149). -/
theorem exec_next_iff (i : Instr) (s : State) :
    (∃ t, exec i s = .next t) ↔
      ((∃ t f, i.parts = some (t, f)) ∧ WordStepEnabled s) ∨ (i = .jumpToBeginning ∧ SentinelStepEnabled true s) ∨
        (i = .endExecution ∧ SentinelStepEnabled false s) := by
  obtain ⟨t, f, rfl⟩ | rfl | rfl := ofTag_or_sentinel i
  · obtain ⟨hj, he⟩ := ofTag_ne_sentinel t f
    simp [exec_ofTag_next_iff, hj, he]
  · simpa [Instr.parts, exec, execJumpToBeginning] using storeSentinel_next_iff
  · simpa [Instr.parts, exec, execEndExecution] using storeSentinel_next_iff

/-- Settles O25: a word's instruction commits its result, a sentinel's stores it, and each stops by name where its
step is not enabled. -/
theorem instructionsStopOnlyWhenNotEnabled : Obligations.InstructionsStopOnlyWhenNotEnabled := by
  refine fun i s => ⟨?_, ?_, ?_, exec_next_iff i s⟩
  · rintro ⟨t, f, hp⟩ he
    rw [← Instr.ofTag_of_parts hp, exec_ofTag, commit_of_not_enabled he]
  · rintro rfl he
    exact storeSentinel_of_not_enabled he _
  · rintro rfl he
    exact storeSentinel_of_not_enabled he _

/-- Settles O26, by the step the instruction made. -/
theorem execFrame : Obligations.ExecFrame := by
  intro i s t h
  obtain ⟨he, ⟨ins, rfl⟩ | ⟨c, rfl⟩⟩ | hsentinel := exec_next_cases h
  · exact ⟨KeepsRest.refl s, fun _ => ⟨rfl, rfl, fun _ hj => Memory.read_write_other hj⟩, fun _ => rfl,
      fun hs => absurd he.1 hs⟩
  · exact ⟨KeepsRest.refl s, fun hs => absurd rfl hs, nofun, fun _ => rfl⟩
  · obtain ⟨ins, hi, rfl⟩ : ∃ ins, s.seqIdx.val = s.nEff.val ∧ t = finished ins s :=
      hsentinel.elim (fun ⟨he, _, ht⟩ => ⟨_, he.2.1, ht⟩) fun ⟨he, _, ht⟩ => ⟨_, he.2.1, ht⟩
    exact ⟨KeepsRest.refl s, fun _ => ⟨rfl, rfl, fun _ hj => Memory.read_write_other (hi ▸ hj)⟩, nofun, fun _ => rfl⟩

/-- Settles O27: the sequencer fetches the word's instruction and runs it. -/
theorem stepRunsDecodedWord : Obligations.StepRunsDecodedWord := by
  intro s w i hn he hw hd
  rw [step_of_noTransactionDue hn, sequencerStep, fetch_word_ok (s := afterHost s) he hw hd]

/-- Settles O28: the sequencer fetches the sentinel and runs it. -/
theorem stepRunsSelectedSentinel : Obligations.StepRunsSelectedSentinel := by
  intro s hn hb hi
  rw [step_of_noTransactionDue hn, sequencerStep, fetch_sentinel (s := afterHost s) hb hi]
  rfl

/-- Settles O29: what the step takes in is the record. -/
theorem wordStepStoresRecord : Obligations.WordStepStoresRecord := by
  intro s w ins hn hb hlt hw hd
  have he : WordStepEnabled (afterHost s) := ⟨hb, hlt⟩
  refine ⟨_, step_word hn he hw, ?_⟩
  rw [hd]
  exact recorded_stores he ins

/-- Settles O30: what the step takes in is the fault. -/
theorem faultStepDiscardsProgram : Obligations.FaultStepDiscardsProgram := by
  intro s w c hn hb hlt hw hd
  have he : WordStepEnabled (afterHost s) := ⟨hb, hlt⟩
  refine ⟨_, step_word hn he hw, ?_⟩
  rw [hd]
  exact faulted_takes he c

/-- At `N_EFF`, with no transaction due, the step stores the sentinel WRAP selects (R151). -/
theorem step_sentinel {s : State} (hn : NoTransactionDue s) (hb : s.status = .busy)
    (hi : s.seqIdx.val = s.nEff.val) :
    step s = .next (finished (if s.wrap then .jumpToBeginning else .endExecution) (afterHost s)) := by
  rw [step_of_noTransactionDue hn, sequencerStep_sentinel (s := afterHost s) hb hi]
  rfl

/-- Settles O31: the step's own state is the sentinel step's. -/
theorem sentinelStepEndsDecode : Obligations.SentinelStepEndsDecode := fun _ hn hb hi =>
  ⟨_, step_sentinel hn hb hi, finished_stores _ _⟩

/-- Settles O32: a waiting sequencer keeps the state it is given, the one after the host's entry. -/
theorem waitingPhasesKeepState : Obligations.WaitingPhasesKeepState := by
  intro s hn hs
  rw [step_of_noTransactionDue hn, sequencerStep_waiting (s := afterHost s) hs]

theorem noTransactionDue_of_nil {s : State} (h : s.host = []) : NoTransactionDue s := by
  simp [NoTransactionDue, h]

/-- A word parses to the record of its own table entry, which may speak of the word 0 only as R61 does. -/
theorem parseWord_cons_self {v : Word} {p : Ports} {tbl : ParserTable} (h0 : v = 0 → p = Ports.zero) :
    parseWord ((v, p) :: tbl) v = p := by
  unfold parseWord
  split
  · next hv => exact (h0 hv).symm
  · simp only [ParserTable.find, if_pos]

/-- The raw word that stands for a table word is 0 only where that table word's record is the all-zero one. -/
theorem portsOfTableBits_eq_zero {w : Nat} (h : BitVec.ofNat 64 (w % 2 ^ 8 % 32) = 0) :
    portsOfTableBits 8 w = Ports.zero := by
  have hmod : w % 2 ^ 8 % 32 % 2 ^ 64 = 0 := congrArg BitVec.toNat h
  have hopc : BitVec.ofNat 5 (w % 2 ^ 8) = 0 := BitVec.eq_of_toNat_eq (show w % 2 ^ 8 % 2 ^ 5 = 0 by omega)
  rw [portsOfTableBits, hopc]
  rfl

theorem decodePorts_of_decodeTableWord {w : Nat} {i : Instr} (h : decodeTableWord 8 w = some i) :
    decodePorts (portsOfTableBits 8 w) = .ok i := by
  unfold decodeTableWord at h
  split at h
  · next hd => cases h; exact hd
  · cases h

/-- Settles O33: the one word loaded parses to the table word's record, and the step runs what that decodes to. -/
theorem tableWordsRunNext : Obligations.TableWordsRunNext := by
  intro s w i hi
  have he : WordStepEnabled (s.withFetchWord 8 w) := ⟨rfl, Nat.one_pos⟩
  have hparse : decodePorts (parseWord (s.withFetchWord 8 w).parser (BitVec.ofNat 64 (w % 2 ^ 8 % 32))) = .ok i :=
    (congrArg decodePorts (parseWord_cons_self portsOfTableBits_eq_zero)).trans (decodePorts_of_decodeTableWord hi)
  exact ⟨stepRunsDecodedWord _ _ i (noTransactionDue_of_nil rfl) he rfl hparse, he⟩

end Sys2Proof.Machine

/-! PROOFS. What the sequencer's phases guarantee: O36, O41. -/

namespace Sys2Proof.Machine

theorem noTransactionDue_or_due (s : State) : NoTransactionDue s ∨ ∃ c rest, s.host = some c :: rest := by
  rw [or_iff_not_imp_left, NoTransactionDue]
  push Not
  exact id

/-- A host's transaction is taken or refused (R186). -/
theorem command_ne_fault (c : Command) (s : State) (r : Fault) : command c s ≠ .fault r := by
  cases c with
  | start img => by_cases hb : s.status = .busy <;> simp [command, start, hb]
  | reset => nofun
  | csrRead k => cases h : csrRead s k <;> simp [command, csrReadCommand, h]
  | progRead j => cases h : progRead s j <;> simp [command, progReadCommand, h]

/-- Below `N_EFF` the snapshot has a word (R32, R37). -/
theorem OnImage.exists_word {ws : List Word} {s : State} (h : OnImage ws s) {i : Nat} (hi : i < s.nEff.val) :
    ∃ w, imageRead s i = some w := by
  rw [h.imageRead_eq]
  obtain ⟨-, hn, -⟩ := h
  exact ⟨_, List.getElem?_eq_getElem (by omega)⟩

/-- Settles O36: while BUSY, `SEQ_IDX` is below `N_EFF`, where the image has a word, or at `N_EFF`, where the sentinel
is due; in every other phase the block waits, and a transaction never stops the model. -/
theorem invariantExcludesStuckStates : Obligations.InvariantExcludesStuckStates := by
  intro s hinv r
  obtain hn | ⟨c, rest, hh⟩ := noTransactionDue_or_due s
  · by_cases hb : s.status = .busy
    · obtain hlt | hi := hinv.seqIdx_le.lt_or_eq
      · obtain ⟨ws, himg, -⟩ := hinv.busy hb
        obtain ⟨w, hw⟩ := himg.exists_word hlt
        rw [step_word hn ⟨hb, hlt⟩ hw]
        nofun
      · rw [step_sentinel hn hb hi]
        nofun
    · rw [waitingPhasesKeepState s hn hb]
      nofun
  · rw [step_of_due hh]
    exact command_ne_fault c _ r

/-- Outside BUSY, with no restart due, a step changes nothing but the host's entries and the result port (R159). -/
theorem step_of_not_busy {s t : State} (hno : NoRestartDue s) (hb : s.status ≠ .busy) (h : step s = .next t) :
    t = { s with host := t.host, result := t.result } := by
  cases stepTo_of_step h with
  | wait => rfl
  | word he => exact absurd he.1 hb
  | fault he => exact absurd he.1 hb
  | sentinel hs => exact absurd hs hb
  | start hh => exact absurd rfl ((hno _ _ hh).2 _)
  | reset hh => exact absurd rfl (hno _ _ hh).1
  | csrRead => rfl
  | progRead => rfl

/-- Settles O41: `STATUS`, `OUT_LEN` and the store stay, and no other field decides what PROG_READ answers (R47). -/
theorem resultLastsUntilRestart : Obligations.ResultLastsUntilRestart := by
  intro s t hno hstep
  constructor
  · intro hd
    rw [step_of_not_busy hno (by rw [hd]; nofun) hstep]
    exact ⟨hd, rfl, fun _ => rfl⟩
  · intro hf
    rw [step_of_not_busy hno (by rw [hf]; nofun) hstep]
    exact ⟨hf, fun j => progRead_eq_none_iff.2 (.inl (by rw [hf]; nofun))⟩

end Sys2Proof.Machine

/-! PROOFS. DecodeProgram: its laws, and the finished program in DONE: O39, O46 to O50. -/

namespace Sys2Proof.Machine

/-- The first `k` words of the image decode (R140). -/
def DecodesBelow (tbl : ParserTable) (img : List Word) (k : Nat) : Prop :=
  ∀ j < k, ∃ w ins, img[j]? = some w ∧ decodeWord tbl w = .ok ins

/-- The records are the decodes of the words, in order (R142). -/
abbrev DecodesTo (tbl : ParserTable) : List Word → List Instruction → Prop :=
  List.Forall₂ fun w ins => decodeWord tbl w = .ok ins

/-- A loop that ends has appended the decode of every word. -/
theorem decodeWords_ok {tbl : ParserTable} {ws : List Word} {i : Nat} {acc prog : List Instruction}
    (h : decodeWords tbl i acc ws = .ok prog) : ∃ body, prog = acc ++ body ∧ DecodesTo tbl ws body := by
  induction ws generalizing i acc with
  | nil =>
    cases h
    exact ⟨[], (List.append_nil _).symm, .nil⟩
  | cons w ws ih =>
    cases hd : decodeWord tbl w with
    | ok ins =>
      rw [decodeWords, hd] at h
      obtain ⟨body, rfl, hbody⟩ := ih h
      exact ⟨ins :: body, List.append_assoc .., .cons hd hbody⟩
    | error c =>
      rw [decodeWords, hd] at h
      cases h

/-- A loop that stops does so at the first word that faults, with that word's index and cause (R140). -/
theorem decodeWords_error {tbl : ParserTable} {ws : List Word} {i k : Nat} {acc : List Instruction}
    {c : FaultCause} (h : decodeWords tbl i acc ws = .error c k) :
    ∃ n w, k = i + n ∧ ws[n]? = some w ∧ decodeWord tbl w = .error c ∧ DecodesBelow tbl ws n := by
  induction ws generalizing i acc with
  | nil => cases h
  | cons w ws ih =>
    cases hd : decodeWord tbl w with
    | ok ins =>
      rw [decodeWords, hd] at h
      obtain ⟨n, v, rfl, hv, hc, hbelow⟩ := ih h
      refine ⟨n + 1, v, by omega, hv, hc, fun j hj => ?_⟩
      cases j with
      | zero => exact ⟨w, ins, rfl, hd⟩
      | succ j => exact hbelow j (by omega)
    | error c =>
      rw [decodeWords, hd] at h
      cases h
      exact ⟨0, w, rfl, rfl, hd, fun _ hj => absurd hj (Nat.not_lt_zero _)⟩

/-- A successful decode is the decodes of the consumed words, then the sentinel (R140). -/
theorem decodeProgram_ok {tbl : ParserTable} {img : List Word} {prog : List Instruction}
    (h : decodeProgram tbl img = .ok prog) :
    ∃ body, prog = body ++ [sentinelFor img.length] ∧ body.length = min img.length codeCapacity ∧
      DecodesTo tbl (img.take codeCapacity) body := by
  unfold decodeProgram at h
  split at h
  · next acc hacc =>
    cases h
    obtain ⟨_, rfl, hbody⟩ := decodeWords_ok hacc
    exact ⟨acc, rfl, by rw [← hbody.length_eq, List.length_take, Nat.min_comm], hbody⟩
  · cases h

/-- Where the consumed part of an image decodes, so does the image. -/
theorem DecodesBelow.of_take {tbl : ParserTable} {img : List Word} {m k : Nat}
    (h : DecodesBelow tbl (img.take m) k) : DecodesBelow tbl img k := by
  intro j hj
  obtain ⟨w, ins, hw, hd⟩ := h j hj
  rw [List.getElem?_take, Option.ite_none_right_eq_some] at hw
  exact ⟨w, ins, hw.2, hd⟩

/-- A decode that aborts reports the first consumed word that faults (R140, R166). -/
theorem decodeProgram_error {tbl : ParserTable} {img : List Word} {c : FaultCause} {i : Nat}
    (h : decodeProgram tbl img = .error c i) :
    i < min img.length codeCapacity ∧ (∃ w, img[i]? = some w ∧ decodeWord tbl w = .error c) ∧
      DecodesBelow tbl img i := by
  unfold decodeProgram at h
  split at h
  · cases h
  · next hacc =>
    cases h
    obtain ⟨n, w, hin, hw, hc, hbelow⟩ := decodeWords_error hacc
    obtain rfl : _ = n := hin.trans (Nat.zero_add n)
    rw [List.getElem?_take, Option.ite_none_right_eq_some] at hw
    obtain ⟨hcap, hw⟩ := hw
    obtain ⟨hlen, -⟩ := List.getElem?_eq_some_iff.1 hw
    exact ⟨lt_min hlen hcap, ⟨w, hw, hc⟩, hbelow.of_take⟩

/-- Settles O46: one record for each consumed word, and the sentinel. -/
theorem lengthLaw : Obligations.LengthLaw := by
  intro t img prog h
  obtain ⟨body, rfl, hlen, -⟩ := decodeProgram_ok h
  rw [List.length_append, hlen, List.length_singleton]

/-- Settles O47: the loop appends each word's record behind those of the words before it. -/
theorem indexAlignment : Obligations.IndexAlignment := by
  intro t img prog h i hi
  obtain ⟨body, rfl, hlen, hbody⟩ := decodeProgram_ok h
  have himg : i < (img.take codeCapacity).length := by rw [List.length_take]; omega
  have hi' : i < body.length := by omega
  refine ⟨img[i], body[i], List.getElem?_eq_getElem (by omega), ?_, ?_⟩
  · exact (List.getElem?_append_left hi').trans (List.getElem?_eq_getElem hi')
  · simpa only [List.get_eq_getElem, List.getElem_take] using hbody.get himg hi'

/-- Settles O48: the sentinel stands behind the decoded words. -/
theorem sentinelLaw : Obligations.SentinelLaw := by
  intro t img prog h
  obtain ⟨body, rfl, -, -⟩ := decodeProgram_ok h
  rw [List.length_append, List.length_singleton, Nat.add_sub_cancel, List.getElem?_concat_length, sentinelFor]

/-- No family constructs a sentinel (R145). -/
theorem dispatch_ne_sentinel {t : OpcodeTag} {f : Fields} {ins : Instruction} (h : dispatch t f = .ok ins) :
    ins ≠ .jumpToBeginning ∧ ins ≠ .endExecution := by
  obtain ht | ⟨op, ht⟩ | ht | ht := dispatch_family t <;> rw [ht] at h <;> obtain ⟨d, -, hb⟩ := withOperands_ok h
  · cases hb; exact ⟨nofun, nofun⟩
  · cases hb; exact ⟨nofun, nofun⟩
  · cases hb; exact ⟨nofun, nofun⟩
  · cases hb

/-- No word decodes to a sentinel (R145). -/
theorem decodeWord_ne_sentinel {tbl : ParserTable} {w : Word} {ins : Instruction} (h : decodeWord tbl w = .ok ins) :
    ins ≠ .jumpToBeginning ∧ ins ≠ .endExecution := by
  unfold decodeWord decodeFields at h
  split at h
  · exact dispatch_ne_sentinel h
  · cases h

/-- Settles O49: every record but the last is a word's decode. -/
theorem sentinelUniqueness : Obligations.SentinelUniqueness := by
  refine ⟨fun t w => ⟨fun h => (decodeWord_ne_sentinel h).1 rfl, fun h => (decodeWord_ne_sentinel h).2 rfl⟩,
    fun t img prog h i hi => ?_⟩
  rw [lengthLaw t img prog h] at hi
  obtain ⟨w, ins, -, hp, hd⟩ := indexAlignment t img prog h i (by omega)
  rw [hp]
  exact (decodeWord_ne_sentinel hd).imp (mt Option.some_inj.1) (mt Option.some_inj.1)

/-- Settles O50: the loop is given the first CODE_CAPACITY words only, and both images ask for JumpToBeginning. -/
theorem capacityTruncation : Obligations.CapacityTruncation := by
  intro t img img' hlen hlen' htake
  have hsentinel : sentinelFor img.length = sentinelFor img'.length := (if_pos hlen).trans (if_pos hlen').symm
  rw [decodeProgram, htake, hsentinel, decodeProgram]

theorem sentinelFor_isSentinel (n : Nat) : sentinelFor n = .jumpToBeginning ∨ sentinelFor n = .endExecution :=
  ite_eq_or_eq ..

/-- Settles O39: a slot below `N_EFF` holds a word's decode, and slot `N_EFF` the sentinel. -/
theorem doneProgramHasSuccessors : Obligations.DoneProgramHasSuccessors := by
  intro s hinv hd
  obtain ⟨ws, -, -, hlen, -, -, hdec, hsentinel, -⟩ := hinv.done hd
  refine ⟨by omega, fun j hj => ?_⟩
  obtain hlt | rfl : j < s.nEff.val ∨ j = s.nEff.val := by omega
  · obtain ⟨w, ins, -, hok, hr⟩ := hdec j hlt
    exact ⟨ins, hr, .inl ⟨by omega, decodeWord_ne_sentinel hok⟩⟩
  · exact ⟨_, hsentinel, .inr ⟨hlen.symm, sentinelFor_isSentinel _⟩⟩

end Sys2Proof.Machine

/-! PROOFS. The machine's run against DecodeProgram: O52, O53. -/

namespace Sys2Proof.Machine

/-- The block is BUSY on `img` under the parser `tbl` with no host input, and has stored the decodes of the first `k`
words: where it stands `k` steps after START (R154). -/
structure DecodingAt (tbl : ParserTable) (img : List Word) (k : Nat) (s : State) : Prop where
  status_eq : s.status = .busy
  host_eq : s.host = []
  parser_eq : s.parser = tbl
  seqIdx_eq : s.seqIdx.val = k
  onImage : OnImage img s
  decoded : DecodedBelow img k s

theorem started_decodingAt {s : State} (hh : s.host = []) (img : List Word) :
    DecodingAt s.parser img 0 (started img s) :=
  ⟨rfl, hh, rfl, rfl, ⟨rfl, rfl, rfl⟩, fun _ h => absurd h (Nat.not_lt_zero _)⟩

section Decoding

variable {tbl : ParserTable} {img : List Word} {k : Nat} {s : State}

theorem DecodingAt.nEff_eq (h : DecodingAt tbl img k s) : s.nEff.val = min img.length codeCapacity := by
  obtain ⟨-, hn, -⟩ := h.onImage
  exact hn

theorem DecodingAt.enabled (h : DecodingAt tbl img k s) (hk : k < min img.length codeCapacity) :
    WordStepEnabled s := ⟨h.status_eq, by rw [h.seqIdx_eq, h.nEff_eq]; exact hk⟩

/-- The step on word `k` takes in what DecodeWord gives (R150, R152). -/
theorem DecodingAt.step_word (h : DecodingAt tbl img k s) (hk : k < min img.length codeCapacity) {w : Word}
    (hw : img[k]? = some w) : step s = .next (committed (decodeWord tbl w) s) := by
  have hread : imageRead s s.seqIdx.val = some w := by rw [h.onImage.imageRead_eq, h.seqIdx_eq, hw]
  rw [Machine.step_word (noTransactionDue_of_nil h.host_eq) (h.enabled hk) hread, afterHost_of_nil h.host_eq,
    h.parser_eq]

/-- Storing the decode of word `k` leads on to word `k + 1`. -/
theorem DecodingAt.recorded (h : DecodingAt tbl img k s) (hk : k < min img.length codeCapacity) {w : Word}
    {ins : Instruction} (hw : img[k]? = some w) (hd : decodeWord tbl w = .ok ins) :
    DecodingAt tbl img (k + 1) (recorded ins s) := by
  have he := h.enabled hk
  obtain ⟨hs, hh, rfl, rfl, himg, hdec⟩ := h
  exact ⟨hs, hh, rfl, nextIndex_val he.lt_capacity, himg, hdec.write_succ hw hd⟩

/-- With every word stored the step stores the sentinel of the image (R143, R151). -/
theorem DecodingAt.step_sentinel (h : DecodingAt tbl img (min img.length codeCapacity) s) :
    step s = .next (finished (sentinelFor img.length) s) := by
  rw [Machine.step_sentinel (noTransactionDue_of_nil h.host_eq) h.status_eq (h.seqIdx_eq.trans h.nEff_eq.symm),
    afterHost_of_nil h.host_eq, h.onImage.sentinel_eq]

/-- The slots stored so far hold the records of DecodeProgram's program (R142). -/
theorem DecodingAt.read_eq (h : DecodingAt tbl img k s) {prog : List Instruction}
    (hprog : decodeProgram tbl img = .ok prog) {j : Nat} (hj : j < k) (hn : j < min img.length codeCapacity) :
    Memory.read s.prog j = prog[j]? := by
  obtain ⟨w, ins, hw, hd, hr⟩ := h.decoded j hj
  obtain ⟨w', ins', hw', hp, hd'⟩ := indexAlignment tbl img prog hprog j hn
  obtain rfl : w = w' := Option.some_inj.1 (hw.symm.trans hw')
  rw [h.parser_eq, hd', WordResult.ok.injEq] at hd
  rw [hr, hp, hd]

/-- The sentinel step leaves DecodeProgram's program in the store. -/
theorem DecodingAt.read_finished (h : DecodingAt tbl img (min img.length codeCapacity) s) {prog : List Instruction}
    (hprog : decodeProgram tbl img = .ok prog) {j : Nat} (hj : j < prog.length) :
    Memory.read (finished (sentinelFor img.length) s).prog j = prog[j]? := by
  have hlen := lengthLaw tbl img prog hprog
  rw [finished_prog, h.nEff_eq]
  obtain hlt | heq : j < min img.length codeCapacity ∨ j = prog.length - 1 := by omega
  · rw [Memory.read_write_other hlt.ne, h.read_eq hprog hlt hlt]
  · have hn : min img.length codeCapacity = prog.length - 1 := by omega
    rw [heq, hn, Memory.read_write_same, sentinelLaw tbl img prog hprog, sentinelFor]

end Decoding

/-- A run of one step more ends with a step. -/
theorem runSteps_succ_of_next {k : Nat} {s t : State} (h : runSteps k s = .next t) :
    runSteps (k + 1) s = step t := by
  induction k generalizing s with
  | zero =>
    cases h
    cases hs : step t <;> simp only [runSteps, hs]
  | succ k ih =>
    rw [runSteps] at h ⊢
    cases hs : step s with
    | next u =>
      rw [hs] at h
      exact ih h
    | fault r => rw [hs] at h; cases h
    | refused r => rw [hs] at h; cases h

/-- As long as the words decode, the run stores one record a step (R154). -/
theorem runSteps_decodingAt {tbl : ParserTable} {img : List Word} {u : State} {n : Nat}
    (hu : DecodingAt tbl img 0 u) (hd : DecodesBelow tbl img n) (hn : n ≤ min img.length codeCapacity) :
    ∀ k ≤ n, ∃ v, runSteps k u = .next v ∧ DecodingAt tbl img k v
  | 0, _ => ⟨u, rfl, hu⟩
  | k + 1, hk => by
    obtain ⟨v, hrun, hv⟩ := runSteps_decodingAt hu hd hn k (by omega)
    obtain ⟨w, ins, hw, hok⟩ := hd k hk
    have hlt : k < min img.length codeCapacity := by omega
    refine ⟨recorded ins v, ?_, hv.recorded hlt hw hok⟩
    rw [runSteps_succ_of_next hrun, hv.step_word hlt hw, hok, committed]

/-- Settles O53: while the words decode the run stores their records one a step, up to the sentinel step after the
last of them, or up to the fault step on the first word that faults. -/
theorem runAgreesWithDecodeProgram : Obligations.RunAgreesWithDecodeProgram := by
  intro s img hs hh
  have hu := started_decodingAt hh img
  refine ⟨started img s, command_start_of_not_busy hs img, fun prog hprog => ?_, fun c i herr => ?_⟩
  · have hd : DecodesBelow s.parser img (min img.length codeCapacity) := fun j hj =>
      have ⟨w, ins, hw, _, hok⟩ := indexAlignment _ img prog hprog j hj
      ⟨w, ins, hw, hok⟩
    have hrun := runSteps_decodingAt hu hd le_rfl
    obtain ⟨v, hv, hat⟩ := hrun _ le_rfl
    refine ⟨fun k hk => (hrun k hk).imp fun _ ⟨hv, hat⟩ => ⟨hv, hat.status_eq⟩,
      finished (sentinelFor img.length) v, ?_, rfl, ?_, fun j hj => hat.read_finished hprog hj⟩
    · rw [runSteps_succ_of_next hv, hat.step_sentinel]
    · rw [lengthLaw _ img prog hprog, ← hat.nEff_eq, finished_outLen]
  · obtain ⟨hi, ⟨w, hw, hc⟩, hd⟩ := decodeProgram_error herr
    have hrun := runSteps_decodingAt hu hd hi.le
    obtain ⟨v, hv, hat⟩ := hrun i le_rfl
    obtain ⟨hreads, hcause, hindex, hout, hstatus, -⟩ := faulted_takes (hat.enabled hi) c
    refine ⟨fun k hk => (hrun k hk).imp fun _ ⟨hv, hat⟩ => ⟨hv, hat.status_eq⟩, faulted c v, ?_, hstatus, hcause,
      hindex.trans hat.seqIdx_eq, hout, hreads⟩
    rw [runSteps_succ_of_next hv, hat.step_word hi hw, hc, committed]

theorem decodeProgram_nil (tbl : ParserTable) : decodeProgram tbl [] = .ok [.endExecution] := rfl

/-- Settles O52: it is the run of O53 on the empty image, whose one step is the sentinel step. -/
theorem emptyImageDecodes : Obligations.EmptyImageDecodes := by
  refine ⟨decodeProgram_nil, fun s hs hh => ?_⟩
  obtain ⟨u, hu, hok, -⟩ := runAgreesWithDecodeProgram s [] hs hh
  obtain ⟨-, t, hrun, hdone, hlen, hread⟩ := hok _ (decodeProgram_nil _)
  have hstep : step u = .next t := (runSteps_succ_of_next rfl).symm.trans hrun
  exact ⟨u, t, hu, hstep, hdone, hlen, hread 0 Nat.one_pos⟩

end Sys2Proof.Machine

/-! PROOFS. The exceptions: what FAULT holds and how it is left, and the fault that is reported: O40, O42, O51. -/

namespace Sys2Proof.Machine

/-- The invariant's clause for FAULT. -/
theorem SequencerInv.fault {s : State} (h : SequencerInv s) (hf : s.status = .fault) :
    ∃ ws c w, OnImage ws s ∧ s.seqIdx.val < s.nEff.val ∧ s.outLen = 0 ∧ s.faultCause = some c ∧
      s.faultIndex.val = s.seqIdx.val ∧ ws[s.seqIdx.val]? = some w ∧ decodeWord s.parser w = .error c ∧
      DecodesBelow s.parser ws s.seqIdx.val ∧ ∀ j, Memory.read s.prog j = none := by
  obtain ⟨-, -, hphase⟩ := h
  rwa [hf] at hphase

/-- Settles O40: the invariant empties every slot in FAULT, and no slot that is `None` is readable. -/
theorem faultLeavesNoPartialOutput : Obligations.FaultLeavesNoPartialOutput := by
  intro s hinv hf
  obtain ⟨ws, c, w, -, -, hout, -, -, -, -, -, hnone⟩ := hinv.fault hf
  exact ⟨hout, fun j => ⟨hnone j, command_progRead_none (progRead_eq_none_iff.2 (.inr (.inr (hnone j))))⟩⟩

/-- Settles O42, by the rule that made the step: the sequencer's own rules need BUSY, or wait and keep the phase, and
the reads keep it too. -/
theorem onlyStartOrResetLeavesFault : Obligations.OnlyStartOrResetLeavesFault := by
  intro s t hf hstep hleft
  have hb : s.status ≠ .busy := by rw [hf]; nofun
  cases stepTo_of_step hstep with
  | wait => exact absurd hf hleft
  | word he => exact absurd he.1 hb
  | fault he => exact absurd he.1 hb
  | sentinel hs => exact absurd hs hb
  | start hh => exact .inl ⟨_, _, hh, rfl⟩
  | reset hh => exact .inr ⟨_, hh, rfl⟩
  | csrRead => exact absurd hf hleft
  | progRead => exact absurd hf hleft

/-- A word that faults does not stand below an index under which every word decodes. -/
theorem DecodesBelow.le_of_error {tbl : ParserTable} {img : List Word} {k i : Nat} {w : Word} {c : FaultCause}
    (h : DecodesBelow tbl img k) (hw : img[i]? = some w) (hc : decodeWord tbl w = .error c) : k ≤ i := by
  by_contra hlt
  obtain ⟨v, ins, hv, hok⟩ := h i (Nat.lt_of_not_le hlt)
  obtain rfl : w = v := Option.some_inj.1 (hw.symm.trans hv)
  cases hc.symm.trans hok

/-- Settles O51: a decode that aborts reports a first fault (`decodeProgram_error`). Conversely, given a consumed word
that faults above words that decode, the decode cannot succeed, and the fault it reports is that one, since neither
index stands below the other. -/
theorem lowestIndexFaultIsReported : Obligations.LowestIndexFaultIsReported := by
  refine fun t img c i => ⟨decodeProgram_error, fun ⟨hi, ⟨w, hw, hc⟩, hbelow⟩ => ?_⟩
  cases hres : decodeProgram t img with
  | ok prog =>
    obtain ⟨v, ins, hv, -, hok⟩ := indexAlignment t img prog hres i hi
    obtain rfl : w = v := Option.some_inj.1 (hw.symm.trans hv)
    cases hc.symm.trans hok
  | error c' i' =>
    obtain ⟨-, ⟨w', hw', hc'⟩, hbelow'⟩ := decodeProgram_error hres
    obtain rfl : i' = i := Nat.le_antisymm (hbelow'.le_of_error hw hc) (DecodesBelow.le_of_error hbelow hw' hc')
    obtain rfl : w' = w := Option.some_inj.1 (hw'.symm.trans hw)
    obtain rfl : c' = c := WordResult.error.inj (hc'.symm.trans hc)
    rfl

end Sys2Proof.Machine

/-! PROOFS. What a step may refuse, and the parser: O43, O44. -/

namespace Sys2Proof.Machine

theorem commit_ne_refused (w : WordResult) (s : State) (r : Refusal) : commit w s ≠ .refused r := by
  by_cases he : WordStepEnabled s
  · rw [commit_of_enabled he]
    nofun
  · rw [commit_of_not_enabled he]
    nofun

theorem storeSentinel_ne_refused (wrap : Bool) (ins : Instruction) (s : State) (r : Refusal) :
    storeSentinel wrap ins s ≠ .refused r := by
  by_cases he : SentinelStepEnabled wrap s
  · rw [storeSentinel_of_enabled he]
    nofun
  · rw [storeSentinel_of_not_enabled he]
    nofun

/-- A word's instruction commits its result and a sentinel's stores it; neither refuses (R186). -/
theorem exec_ne_refused (i : Instr) (s : State) (r : Refusal) : exec i s ≠ .refused r := by
  obtain ⟨t, f, rfl⟩ | rfl | rfl := ofTag_or_sentinel i
  · rw [exec_ofTag]
    exact commit_ne_refused _ s r
  · exact storeSentinel_ne_refused _ _ s r
  · exact storeSentinel_ne_refused _ _ s r

/-- A word with an unused code takes its decode fault as any faulting word does (R73). -/
theorem sequencerStep_ne_refused (s : State) (r : Refusal) : sequencerStep s ≠ .refused r := by
  unfold sequencerStep
  cases fetch s with
  | instr i => exact exec_ne_refused i s r
  | rejected d => exact commit_ne_refused (.error (rejectCause d)) s r
  | waiting => nofun
  | stuck f => nofun

/-- The refusals among the host's transactions, each with its name (R186). -/
theorem command_refused {c : Command} {s : State} {r : Refusal} (h : command c s = .refused r) :
    (∃ img, c = .start img ∧ s.status = .busy ∧ r = .startWhileBusy) ∨
    (∃ k, c = .csrRead k ∧ 7 ≤ k ∧ r = .csrReadNoRegister) ∨
    (∃ j, c = .progRead j ∧ progRead s j = none ∧ r = .progReadNotReadable) := by
  cases c with
  | start img =>
    by_cases hb : s.status = .busy
    · cases (command_start_of_busy hb img).symm.trans h
      exact .inl ⟨img, rfl, hb, rfl⟩
    · cases (command_start_of_not_busy hb img).symm.trans h
  | reset => cases h
  | csrRead k =>
    obtain hk | hk := Nat.lt_or_ge k 7
    · cases (command_csrRead_some (csrRead_of_lt s hk)).symm.trans h
    · cases (command_csrRead_none (csrRead_of_ge s hk)).symm.trans h
      exact .inr (.inl ⟨k, rfl, hk, rfl⟩)
  | progRead j =>
    cases hj : progRead s j with
    | some ins => cases (command_progRead_some hj).symm.trans h
    | none =>
      cases (command_progRead_none hj).symm.trans h
      exact .inr (.inr ⟨j, rfl, hj, rfl⟩)

/-- Settles O43: the sequencer refuses nothing, so a transaction is due, and the host's entry it uses up decides none
of the transactions' own refusals. -/
theorem onlyHostMisuseIsRefused : Obligations.OnlyHostMisuseIsRefused := by
  intro s r hstep
  obtain hn | ⟨c, rest, hh⟩ := noTransactionDue_or_due s
  · rw [step_of_noTransactionDue hn] at hstep
    exact absurd hstep (sequencerStep_ne_refused _ r)
  · rw [step_of_due hh] at hstep
    obtain ⟨img, rfl, hb, rfl⟩ | ⟨k, rfl, hk, rfl⟩ | ⟨j, rfl, hj, rfl⟩ := command_refused hstep
    · exact .inl ⟨img, rest, hh, hb, rfl⟩
    · exact .inr (.inl ⟨k, rest, hh, hk, rfl⟩)
    · exact .inr (.inr ⟨j, rest, hh, hj, rfl⟩)

/-- Settles O44, by the rule that made the step: none writes the parser, RESET included (R183, log 15). -/
theorem parserIsAParameter : Obligations.ParserIsAParameter := by
  intro s t hstep
  cases stepTo_of_step hstep with
  | wait => rfl
  | word => rfl
  | fault => rfl
  | sentinel => rfl
  | start => rfl
  | reset => rfl
  | csrRead => rfl
  | progRead => rfl

end Sys2Proof.Machine
